-- ==== Sys2Proof/Word.lean ====
section
/-! DEFINITION. The word types of RBUF: bytes, port words, counts and 4-bit codes (00_scope.md R10, R11, R30;
30_encoding.md R301, R307). -/

namespace Sys2Proof

/-- A byte, an unsigned value in [0, 255] (R10). -/
abbrev Byte := BitVec 8

/-- A command or response word as it crosses a port, bit 31 the most significant (R30, R202). -/
abbrev Word := BitVec 32

/-- A count, length, capacity or offset: an unsigned `CNT_W = 24`-bit value (R11). -/
abbrev Count := BitVec 24

/-- A 4-bit field: an opcode, the reserved field, a status code or a fault code (R301, R307, R100). -/
abbrev Code := BitVec 4

end Sys2Proof
end

