-- ==== Sys2Proof/Config.lean ====
section
/-! DEFINITION. What is fixed for one RBUF: its ports and their clock domains (00_scope.md R16, 20_memory.md R215), the
implementation parameters (R12 to R15), the turns of its schedule (20_memory.md R211, R213), and the free values. -/

namespace Sys2Proof

/-- The three ports: P (producer), C (consumer), H (host) (R16, R210, R713). -/
inductive Port where
  | p
  | c
  | h
  deriving DecidableEq, Repr, Inhabited

/-- The two clock domains (R215). -/
inductive Clock where
  | wclk
  | rclk
  deriving DecidableEq, Repr

/-- The clock domain each port belongs to; no rule depends on it (R215). -/
def Port.clock : Port → Clock
  | .p => .wclk
  | .c => .rclk
  | .h => .wclk

/-- Whose step is taken next: an agent's own step on its port (`accept` if its slot is empty, else `complete`), or a reset
pulse (R211). -/
inductive Turn where
  | port (q : Port)
  | reset
  deriving DecidableEq, Repr, Inhabited

/-- `SHUTDOWN_POLICY` (R15). -/
inductive ShutdownPolicy where
  | truncate
  | drop
  deriving DecidableEq, Repr

/-- The named parameters of one RBUF (R13, R14, R15). -/
structure Params where
  /-- `CAP_LIMIT` (R13). -/
  capLimit : Nat
  /-- `MEM_BYTES` (R14). -/
  memBytes : Nat
  /-- `SHUTDOWN_POLICY` (R15). -/
  policy : ShutdownPolicy
  deriving DecidableEq, Repr

/-- `SENTINEL = 2^CNT_W - 1` (R12). -/
def sentinel : Count := 0xFFFFFF#24

/-- The bounds that R13 and R14 put on the parameters. -/
abbrev Params.Legal (k : Params) : Prop :=
  (2 ≤ k.capLimit ∧ k.capLimit ≤ 0xFFFFFF) ∧ (1 ≤ k.memBytes ∧ k.memBytes ≤ 0xFFFFFE)

/-- The default parameters (R13, R14, R15). -/
def Params.default : Params := ⟨0xFFFFFF, 65536, .truncate⟩

/-- FREE VALUE. The byte that STORAGE index `a` holds in draw `d` while nothing has been stored there since the bytes last
became unspecified (10_state.md R109, R119; 93 U2; notes/assumptions/1.md). -/
opaque Config.freeByte (d a : Nat) : Byte

/-- FREE VALUE. Whose step is taken at tick `n` where the state's own schedule names no turn (20_memory.md R213; 93 U1;
notes/assumptions/2.md). -/
opaque Config.freeTurn (n : Nat) : Turn

end Sys2Proof
end

