-- ==== Sys2Proof/Syntax.lean ====
section
/-! DEFINITION. The operations of RBUF, one constructor per row of the opcode map (30_encoding.md R303): what
`decode` yields as `Op(OP, OPND)` (R316). A payload is no part of it: it stands in the port's slot (10_state.md R115). -/

namespace Sys2Proof

/-- One operation with its operand (R302, R303). -/
inductive Instr where
  /-- CONSTRUCT, operand: the requested capacity (R401). -/
  | construct (cap : Count)
  /-- DESTROY (R408). -/
  | destroy
  /-- CAPACITY (R402). -/
  | capacity
  /-- SIZE (R403). -/
  | size
  /-- AVAIL (R404). -/
  | avail
  /-- WRITE, operand: the requested length (R406). -/
  | write (len : Count)
  /-- READ, operand: the requested length (R407). -/
  | read (len : Count)
  /-- PRODUCE, operand: the chunk length (R501). -/
  | produce (len : Count)
  /-- CONSUME, operand: the largest number of bytes wanted (R503). -/
  | consume (max : Count)
  /-- SIGNAL_PRODUCER_DONE (R504). -/
  | signalProducerDone
  /-- STATUS (R600). -/
  | status
  /-- HEAD (R601). -/
  | head
  /-- TAIL (R602). -/
  | tail
  deriving DecidableEq, Repr

end Sys2Proof
end

