-- ==== Sys2Proof/Decode.lean ====
section
/-! DEFINITION. The command decoder and encoder (30_encoding.md R301 to R306, R316), the length of a transaction (R309, R311),
the response word and its status codes (R307, R308), and the assembler text of a transaction (R314, R315). -/

namespace Sys2Proof

/-! ## Command words -/

/-- Why a command word is `Illegal` (R316). -/
inductive DecodeError where
  /-- `OP` is 0x0, 0xE or 0xF (R304). -/
  | reservedOpcode
  /-- `RSV ≠ 0` (R305). -/
  | reservedBits
  /-- A must-be-zero operand is not zero (R306). -/
  | operandNotZero
  deriving DecidableEq, Repr

/-- `OP = w[31:28]` (R301). -/
def opField (w : Word) : Code := w.extractLsb' 28 4

/-- `RSV = w[27:24]` (R301). -/
def rsvField (w : Word) : Code := w.extractLsb' 24 4

/-- `OPND = w[23:0]`, unsigned (R301, R302). -/
def opndField (w : Word) : Count := w.extractLsb' 0 24

/-- An operation that takes no operand: `OPND` must be 0 (R306). -/
def noOperand (i : Instr) (opnd : Count) : Except DecodeError Instr :=
  if opnd = 0#24 then .ok i else .error .operandNotZero

/-- The opcode map (R303), with the reserved opcodes (R304) and the operand check (R306). -/
def decodeOp (op : Code) (opnd : Count) : Except DecodeError Instr :=
  match op.toNat with
  | 0x1 => .ok (.construct opnd)
  | 0x2 => noOperand .destroy opnd
  | 0x3 => noOperand .capacity opnd
  | 0x4 => noOperand .size opnd
  | 0x5 => noOperand .avail opnd
  | 0x6 => .ok (.write opnd)
  | 0x7 => .ok (.read opnd)
  | 0x8 => .ok (.produce opnd)
  | 0x9 => .ok (.consume opnd)
  | 0xA => noOperand .signalProducerDone opnd
  | 0xB => noOperand .status opnd
  | 0xC => noOperand .head opnd
  | 0xD => noOperand .tail opnd
  | _ => .error .reservedOpcode

/-- The reserved opcodes (R304). -/
def reservedOp (op : Code) : Bool := op == 0x0#4 || op == 0xE#4 || op == 0xF#4

/-- The format decoder, total on every 32-bit word, its checks in the order of R316. -/
def decode (w : Word) : Except DecodeError Instr :=
  if reservedOp (opField w) then .error .reservedOpcode
  else if rsvField w ≠ 0#4 then .error .reservedBits
  else decodeOp (opField w) (opndField w)

/-- The three fields of a command word put together, `RSV = 0` (R301). -/
def commandWord (op : Code) (opnd : Count) : Word := op ++ 0#4 ++ opnd

/-- The command word of an operation (R303). -/
def encode : Instr → Word
  | .construct cap => commandWord 0x1#4 cap
  | .destroy => commandWord 0x2#4 0#24
  | .capacity => commandWord 0x3#4 0#24
  | .size => commandWord 0x4#4 0#24
  | .avail => commandWord 0x5#4 0#24
  | .write len => commandWord 0x6#4 len
  | .read len => commandWord 0x7#4 len
  | .produce len => commandWord 0x8#4 len
  | .consume max => commandWord 0x9#4 max
  | .signalProducerDone => commandWord 0xA#4 0#24
  | .status => commandWord 0xB#4 0#24
  | .head => commandWord 0xC#4 0#24
  | .tail => commandWord 0xD#4 0#24

/-- The operation the decoder reads from a word numbered as spec/opcode_table.json numbers it. A command is one parallel
32-bit word with bit 31 the most significant (R202, R301), so the table's numbering is the word's own. -/
def decodeTableWord (_nbits w : Nat) : Option Instr :=
  match decode (BitVec.ofNat 32 w) with
  | .ok i => some i
  | .error _ => none

/-! ## Transaction length -/

/-- The payload bytes that follow a legal operation on a port (R303, R309, R312): only P has a payload channel. -/
def payloadOf (q : Port) (i : Instr) : Nat :=
  match i with
  | .write len | .produce len =>
    match q with
    | .p => len.toNat
    | .c | .h => 0
  | .construct _ | .destroy | .capacity | .size | .avail | .read _ | .consume _ | .signalProducerDone
  | .status | .head | .tail => 0

/-- The payload bytes the block takes after a command word, told from the word alone (R311): none after an illegal word. -/
def payloadLen (q : Port) (w : Word) : Nat :=
  match decode w with
  | .ok i => payloadOf q i
  | .error _ => 0

/-- The length in bytes of a command transaction (R311). -/
def commandBytes (q : Port) (w : Word) : Nat := 4 + payloadLen q w

/-! ## Response words -/

/-- The status codes (R308, R701). -/
inductive Status where
  | ok
  | outOfSpace
  | endOfData
  | invalidArgument
  | outOfMemory
  | noBuffer
  | alreadyConstructed
  | illegalCommand
  | aborted
  | chunkDropped
  deriving DecidableEq, Repr

/-- The code of a status (R308). -/
def statusCode : Status → Code
  | .ok => 0x0#4
  | .outOfSpace => 0x1#4
  | .endOfData => 0x2#4
  | .invalidArgument => 0x3#4
  | .outOfMemory => 0x4#4
  | .noBuffer => 0x5#4
  | .alreadyConstructed => 0x6#4
  | .illegalCommand => 0x7#4
  | .aborted => 0x8#4
  | .chunkDropped => 0x9#4

/-- The response word `{ST, 0000, VAL}` (R307). -/
def responseWord (st : Status) (val : Count) : Word := statusCode st ++ 0#4 ++ val

/-- `ST` of a response word (R307). -/
def stField (w : Word) : Code := w.extractLsb' 28 4

/-- `VAL` of a response word (R307). -/
def valField (w : Word) : Count := w.extractLsb' 0 24

/-- Whether a response may carry read data: it answers a READ or CONSUME (R310). -/
def answersWithData : Instr → Bool
  | .read _ | .consume _ => true
  | .construct _ | .destroy | .capacity | .size | .avail | .write _ | .produce _ | .signalProducerDone
  | .status | .head | .tail => false

/-- The length in bytes of a response transaction (R311). -/
def responseBytes (i : Instr) (rsp : Word) : Nat :=
  if answersWithData i && stField rsp == 0x0#4 then 4 + (valField rsp).toNat else 4

/-! ## Assembler text -/

/-- The mnemonic of an operation (R303). -/
def mnemonic : Instr → String
  | .construct _ => "CONSTRUCT"
  | .destroy => "DESTROY"
  | .capacity => "CAPACITY"
  | .size => "SIZE"
  | .avail => "AVAIL"
  | .write _ => "WRITE"
  | .read _ => "READ"
  | .produce _ => "PRODUCE"
  | .consume _ => "CONSUME"
  | .signalProducerDone => "SIGNAL_PRODUCER_DONE"
  | .status => "STATUS"
  | .head => "HEAD"
  | .tail => "TAIL"

/-- The operand an operation shows in assembler text; `none` where OPND must be zero (R314). -/
def shownOperand : Instr → Option Count
  | .construct n | .write n | .read n | .produce n | .consume n => some n
  | .destroy | .capacity | .size | .avail | .signalProducerDone | .status | .head | .tail => none

/-- The port's letter (R314). -/
def portText : Port → String
  | .p => "P"
  | .c => "C"
  | .h => "H"

/-- The low `k` hexadecimal digits of a number, most significant first. -/
def hexText : Nat → Nat → String
  | 0, _ => ""
  | k + 1, n =>
    hexText k (n / 16) ++
      (match n % 16 with
       | 0 => "0" | 1 => "1" | 2 => "2" | 3 => "3" | 4 => "4" | 5 => "5" | 6 => "6" | 7 => "7"
       | 8 => "8" | 9 => "9" | 10 => "A" | 11 => "B" | 12 => "C" | 13 => "D" | 14 => "E" | _ => "F")

/-- A 32-bit word in hexadecimal, `0xHHHHHHHH` (R30). -/
def wordText (w : Word) : String := "0x" ++ hexText 8 w.toNat

/-- Bytes as `[b0, b1, ...]` in hexadecimal (R314). -/
def bytesText (bs : List Byte) : String :=
  "[" ++ ", ".intercalate (bs.map fun b => hexText 2 b.toNat) ++ "]"

/-- The assembler text of a command: the mnemonic form of a legal word, `raw 0xHHHHHHHH` of an illegal one (R314). Operands
are written in hexadecimal, which R314 allows. -/
def commandText (q : Port) (w : Word) (payload : List Byte) : String :=
  portText q ++ ": " ++
    match decode w with
    | .error _ => "raw " ++ wordText w
    | .ok i =>
      mnemonic i
        ++ (match shownOperand i with | some n => " 0x" ++ hexText 6 n.toNat | none => "")
        ++ (match payload with | [] => "" | bs => " " ++ bytesText bs)

/-- One line of a test program: `<label>  <port>: <command>   -> <response word> [<read data>]` (R314). -/
def transactionText (label : String) (q : Port) (w : Word) (payload : List Byte) (rsp : Word) (data : List Byte) : String :=
  label ++ "  " ++ commandText q w payload ++ "   -> " ++ wordText rsp
    ++ (match data with | [] => "" | bs => " " ++ bytesText bs)

/-- The shorthand `WRITE [b0, ..., bk-1]`: WRITE with operand k (R315). -/
def writeOf (bs : List Byte) : Instr := .write (BitVec.ofNat 24 bs.length)

/-- The shorthand `PRODUCE [b0, ..., bk-1]`: PRODUCE with operand k (R315). -/
def produceOf (bs : List Byte) : Instr := .produce (BitVec.ofNat 24 bs.length)

end Sys2Proof
end

