-- ==== Sys2Proof/Machine/State.lean ====
section
/-! DEFINITION. The state of RBUF (10_state.md R100, R115, R119) with the model's own fields for its parameters, its
environment, its observation (20_memory.md R224) and its schedule (R213), and the reasons a step can stop. -/

namespace Sys2Proof.Machine

/-- A command as a slot holds it: the word and, for WRITE and PRODUCE on P, its whole payload (R115). -/
structure Command where
  word : Word
  payload : List Byte
  deriving DecidableEq, Repr

/-- A response as a port receives it: the word and the read data (R300, R310). -/
structure Response where
  word : Word
  data : List Byte
  deriving DecidableEq, Repr

/-- One entry of a port's observation: a command it presented or a response it received (R224). -/
inductive Event where
  | command (c : Command)
  | response (r : Response)
  deriving DecidableEq, Repr

/-- One value for each port. -/
structure PerPort (α : Type) where
  p : α
  c : α
  h : α
  deriving DecidableEq, Repr

/-- STORAGE as the bytes that hold a specified value, in strictly rising order of index. An unlisted index holds an
unspecified byte (R109; notes/assumptions/1.md). -/
abbrev Memory := List Host.Cell

/-- The whole state. -/
structure State where
  /-- CONSTRUCTED (R101). -/
  constructed : Bool
  /-- CAPACITY (R102). -/
  capacity : Count
  /-- SIZE (R103). -/
  size : Count
  /-- HEAD (R104). -/
  head : Count
  /-- TAIL (R105). -/
  tail : Count
  /-- STORAGE (R109). -/
  storage : Memory
  /-- PRODUCER_DONE (R110). -/
  producerDone : Bool
  /-- CONSUMER_EXITED (R111). -/
  consumerExited : Bool
  /-- FAULT (R113). -/
  fault : Bool
  /-- FAULT_CODE (R114). -/
  faultCode : Code
  /-- PEND_P, PEND_C, PEND_H (R115). -/
  pend : PerPort (Option Command)
  /-- The parameters (R13 to R15), which no step writes (notes/assumptions/3.md). -/
  params : Params
  /-- The model's own: the command words each agent will present, oldest first (notes/assumptions/4.md). -/
  inbox : PerPort (List Word)
  /-- The model's own: the payload bytes the producer will present on P, oldest first (notes/assumptions/4.md). -/
  wdata : List Byte
  /-- The model's own: what each port has presented and received, oldest first (R224; notes/assumptions/5.md). -/
  trace : PerPort (List Event)
  /-- The model's own: the next turns, as far as they are named (R213; notes/assumptions/2.md). -/
  turns : List Turn
  /-- The model's own: the number of steps taken, with which a free turn is drawn (notes/assumptions/2.md). -/
  tick : Nat
  /-- The model's own: the port whose step is being taken (notes/assumptions/6.md). -/
  served : Port
  /-- The model's own: which draw the unspecified bytes of STORAGE come from (notes/assumptions/1.md). -/
  draw : Nat
  deriving DecidableEq, Repr

/-- Why the machine stops. -/
inductive Fault where
  /-- Raised by a WRITE, READ, PRODUCE or CONSUME whose ring transfer does not meet the "requires" line of R405
  (1 ≤ n ≤ CAPACITY, offset < CAPACITY, as many bytes as n) inside STORAGE: R201 says that no such access is ever made and
  that it has no defined effect. No state that meets `Inv` raises it. Safe. -/
  | ringRequirement
  deriving DecidableEq, Repr

/-- Why an instruction is refused. -/
inductive Refusal where
  /-- Raised by an arm of `exec` whose instruction has no meaning yet; no arm raises it now. Safe. -/
  | notModelled (mnemonic : String)
  deriving DecidableEq, Repr

/-- What a step answers. -/
abbrev Result := Host.Outcome State Fault Refusal

/-- The machine right after reset (R119, R801): no buffer, no fault, nothing pending, STORAGE unspecified, the default
parameters (R13 to R15), and an environment that has presented nothing. -/
def State.reset : State where
  constructed := false
  capacity := 0#24
  size := 0#24
  head := 0#24
  tail := 0#24
  storage := []
  producerDone := false
  consumerExited := false
  fault := false
  faultCode := 0#4
  pend := ⟨none, none, none⟩
  params := Params.default
  inbox := ⟨[], [], []⟩
  wdata := []
  trace := ⟨[], [], []⟩
  turns := []
  tick := 0
  served := .h
  draw := 0

end Sys2Proof.Machine
end

