-- ==== Sys2Proof/Machine/Ops.lean ====
section
/-! DEFINITION. The named operations over the state: per-port access, storage bytes (20_memory.md R201), answering a command
(00_scope.md R34), recording and raising a fault (60_exceptions.md R703), the common checks (R702, R709), accepting a command
(20_memory.md R211), reset (70_reset_and_hazards.md R800), and the schedule (R213). -/

namespace Sys2Proof.Machine

/-! ## Per-port access -/

/-- The value held for a port. -/
def PerPort.get {α : Type} (x : PerPort α) : Port → α
  | .p => x.p
  | .c => x.c
  | .h => x.h

/-- The same with a new value for one port. -/
def PerPort.set {α : Type} (x : PerPort α) (q : Port) (v : α) : PerPort α :=
  match q with
  | .p => { x with p := v }
  | .c => { x with c := v }
  | .h => { x with h := v }

/-! ## Storage bytes -/

/-- The specified byte at an index, if there is one. -/
def Memory.lookup (a : Nat) : Memory → Option Byte
  | [] => none
  | (b, v) :: rest => if a = b then some v else Memory.lookup a rest

/-- `MemWrite(a, 1, v)` (R34, R201). -/
def Memory.write (a : Nat) (v : Byte) : Memory → Memory
  | [] => [(a, v)]
  | (b, w) :: rest =>
    if a < b then (a, v) :: (b, w) :: rest
    else if a = b then (a, v) :: rest
    else (b, w) :: Memory.write a v rest

/-- The canonical form: indices strictly rising. An entry is a specified byte and an unlisted index holds none, so no entry
equals what an unlisted index holds. -/
abbrev Memory.wf (m : Memory) : Prop := m.Pairwise fun x y => x.1 < y.1

/-- `MemRead(a, 1)` (R34, R201): the byte last stored, or a free value where none is listed (R109). DESIGN CHOICE, unsafe
(notes/assumptions/1.md): a byte that READ or CONSUME has delivered is still listed and reads as last stored, though R109 calls
every byte outside the occupied region unspecified; no operation reads one. -/
def memRead (s : State) (a : Nat) : Byte :=
  match Memory.lookup a s.storage with
  | some v => v
  | none => Config.freeByte s.draw a

/-! ## Answering a command -/

/-- Send a response on a port and empty its slot (R34 `respond`, R115, R211). A payload still in the slot is thrown away with
it (R34 `discard`, R309). -/
def respondOn (q : Port) (st : Status) (val : Count) (data : List Byte) (s : State) : State :=
  { s with
    pend := s.pend.set q none
    trace := s.trace.set q (s.trace.get q ++ [.response ⟨responseWord st val, data⟩]) }

/-- `respond` on the port that issued the command (R34, R708). -/
def respond (st : Status) (val : Count) (data : List Byte) (s : State) : State := respondOn s.served st val data s

/-- The fault codes (R703). -/
def isFault : Status → Bool
  | .noBuffer | .alreadyConstructed | .illegalCommand | .aborted => true
  | .ok | .outOfSpace | .endOfData | .invalidArgument | .outOfMemory | .chunkDropped => false

/-- `record_fault(E)`: only a fault code, and only the first since reset (R703, R113, R114). -/
def recordFault (e : Status) (s : State) : State :=
  if isFault e && !s.fault then { s with fault := true, faultCode := statusCode e } else s

/-- TAKING AN EXCEPTION: `raise E = record_fault(E); respond(E, 0)` (R703). RBUF has no other: no trap, no saved state, no
return (R700, R707). -/
def raise (e : Status) (s : State) : State := respond e 0#24 [] (recordFault e s)

/-! ## Common checks -/

/-- The ports that may issue an operation (R303, R709). -/
def portRights : Instr → List Port
  | .construct _ | .destroy => [.h]
  | .write _ | .produce _ => [.p]
  | .read _ | .consume _ => [.c]
  | .signalProducerDone => [.p, .h]
  | .capacity | .size | .avail | .status | .head | .tail => [.p, .c, .h]

/-- Whether an operation is subject to the NO_BUFFER check: all but CONSTRUCT and STATUS (R702 step 3, R600). -/
def needsBuffer : Instr → Bool
  | .construct _ | .status => false
  | .destroy | .capacity | .size | .avail | .write _ | .read _ | .produce _ | .consume _
  | .signalProducerDone | .head | .tail => true

/-- Steps 2 and 3 of the common checks for a legal operation on a port: the fault it completes with, if one fails (R702). -/
def commonCheck (q : Port) (i : Instr) (s : State) : Option Status :=
  if q ∉ portRights i then some .illegalCommand
  else if needsBuffer i && !s.constructed then some .noBuffer
  else none

/-- Run an operation's own rule after the common checks (R400, R702 step 4). -/
def checked (i : Instr) (s : State) (body : State → Result) : Result :=
  match commonCheck s.served i s with
  | some e => .next (raise e s)
  | none => body s

/-! ## Aborting, accepting, reset -/

/-- Whether a slot holds a PRODUCE or CONSUME (R408). -/
def holdsBlocking (slot : Option Command) : Bool :=
  match slot with
  | none => false
  | some c =>
    match decode c.word with
    | .ok (.produce _) | .ok (.consume _) => true
    | _ => false

/-- DESTROY's loop body for one port: a pending PRODUCE or CONSUME is answered ABORTED (R408). -/
def abort (q : Port) (s : State) : State :=
  if holdsBlocking (s.pend.get q) then respondOn q .aborted 0#24 [] (recordFault .aborted s) else s

/-- `accept(p, cmd)`: the next command word of the agent's queue fills the empty slot, with the payload the word calls for
taken from the producer's byte stream (R211, R309, R311, R811). It is not enabled, and the state stays, while the agent
presents nothing, or not the whole payload (R211, R817). -/
def accept (q : Port) (s : State) : State :=
  match s.inbox.get q with
  | [] => s
  | w :: rest =>
    let n := payloadLen q w
    if s.wdata.length < n then s
    else
      let cmd : Command := ⟨w, s.wdata.take n⟩
      { s with
        pend := s.pend.set q (some cmd)
        inbox := s.inbox.set q rest
        wdata := s.wdata.drop n
        trace := s.trace.set q (s.trace.get q ++ [.command cmd]) }

/-- The `reset` step: every field of R100 takes its value of R119 and pending commands are dropped without a response (R800).
STORAGE is a new draw. The parameters, the environment, the observation and the schedule are not RBUF's and stay. -/
def resetPulse (s : State) : State :=
  { State.reset with
    params := s.params
    inbox := s.inbox
    wdata := s.wdata
    trace := s.trace
    turns := s.turns
    tick := s.tick
    served := s.served
    draw := s.draw + 1 }

/-! ## Schedule -/

/-- Whose turn it is: the next turn the state names, else a free one (R213). -/
def nextTurn (s : State) : Turn :=
  match s.turns with
  | t :: _ => t
  | [] => Config.freeTurn s.tick

/-- One turn used up. -/
def advance (s : State) : State := { s with turns := s.turns.tail, tick := s.tick + 1 }

/-- The state while a port is served. -/
def serve (q : Port) (s : State) : State := { s with served := q }

/-- `x_cmd_ready`: the block takes a command on a port exactly while its slot is empty (30_encoding.md R313, R810). -/
def cmdReady (q : Port) (s : State) : Bool := (s.pend.get q).isNone

end Sys2Proof.Machine
end

