-- ==== Sys2Proof/Machine/Operands.lean ====
section
/-! DEFINITION. The operand forms: the payload of the served command, AVAIL (10_state.md R106), the wrap-around copy
(40_ringbuffer.md R405), and the transfers that WRITE, READ, PRODUCE and CONSUME share (R406, R407). -/

namespace Sys2Proof.Machine

/-- The payload in the served port's slot (R115). -/
def servedPayload (s : State) : List Byte :=
  match s.pend.get s.served with
  | some c => c.payload
  | none => []

/-- `AVAIL = CAPACITY - SIZE`, computed when read (R106). -/
def avail (s : State) : Nat := s.capacity.toNat - s.size.toNat

/-! ## The wrap-around copy -/

/-- Write bytes at consecutive indices. -/
def writeRun (a : Nat) (bs : List Byte) (m : Memory) : Memory :=
  match bs with
  | [] => m
  | b :: rest => writeRun (a + 1) rest (Memory.write a b m)

/-- Read `n` bytes at consecutive indices. -/
def readRun (s : State) (a n : Nat) : List Byte := (List.range n).map fun i => memRead s (a + i)

/-- The offset after a transfer of `n` bytes from `off`, by the three cases of R405: exact fit, single copy, split copy. -/
def newOffset (cap off n : Nat) : Nat :=
  let run := cap - off
  if n ≤ run then (if run = n then 0 else off + n) else n - run

/-- `ring_store`'s copy: one run, or two where the bytes reach past the end of storage (R405). -/
def ringStore (cap off : Nat) (bytes : List Byte) (m : Memory) : Memory :=
  let run := cap - off
  if bytes.length ≤ run then writeRun off bytes m
  else writeRun 0 (bytes.drop run) (writeRun off (bytes.take run) m)

/-- `ring_load`'s copy (R405). -/
def ringLoad (cap off n : Nat) (s : State) : List Byte :=
  let run := cap - off
  if n ≤ run then readRun s off n else readRun s off run ++ readRun s 0 (n - run)

/-- The "requires" line of `ring_store` and `ring_load`, inside STORAGE (R405, R201, R200). -/
def ringRequires (s : State) (off n : Nat) : Bool :=
  decide (1 ≤ n ∧ n ≤ s.capacity.toNat ∧ off < s.capacity.toNat ∧ s.capacity.toNat ≤ s.params.memBytes)

/-! ## Shared transfers -/

/-- The first `n` payload bytes stored at TAIL and added to SIZE (R406, R501). -/
def putBytes (n : Nat) (s : State) : State :=
  { s with
    storage := ringStore s.capacity.toNat s.tail.toNat ((servedPayload s).take n) s.storage
    tail := BitVec.ofNat 24 (newOffset s.capacity.toNat s.tail.toNat n)
    size := BitVec.ofNat 24 (s.size.toNat + n) }

/-- Store the first `n` payload bytes and answer `OK, n`; the rest of the payload is discarded (R406, R501). -/
def storeServed (n : Nat) (s : State) : Result :=
  if ringRequires s s.tail.toNat n && decide (n ≤ (servedPayload s).length) then
    .next (respond .ok (BitVec.ofNat 24 n) [] (putBytes n s))
  else .fault .ringRequirement

/-- The oldest `n` bytes taken off at HEAD and off SIZE, nothing written to STORAGE (R407, R503, R109). DESIGN CHOICE, unsafe
(notes/assumptions/1.md): R109 calls the bytes so left outside the occupied region unspecified; they stay listed and go on reading
as last stored until an overwrite, a DESTROY or a reset. -/
def takeBytes (n : Nat) (s : State) : State :=
  { s with
    head := BitVec.ofNat 24 (newOffset s.capacity.toNat s.head.toNat n)
    size := BitVec.ofNat 24 (s.size.toNat - n) }

/-- Deliver the oldest `n` bytes and answer `OK, n` with them (R407, R503). -/
def deliverServed (n : Nat) (s : State) : Result :=
  if ringRequires s s.head.toNat n then
    .next (respond .ok (BitVec.ofNat 24 n) (ringLoad s.capacity.toNat s.head.toNat n s) (takeBytes n s))
  else .fault .ringRequirement

/-- The body of WRITE, which a PRODUCE cut short under TRUNCATE runs too (R406, R502). -/
def writeBody (len : Count) (s : State) : Result :=
  if len = 0#24 then .next (respond .ok 0#24 [] s)
  else if avail s = 0 then .next (respond .outOfSpace sentinel [] s)
  else storeServed (min len.toNat (avail s)) s

/-- Deliver up to a requested number of bytes, as READ and CONSUME do once they may (R407, R503). -/
def readBody (len : Count) (s : State) : Result :=
  if len = 0#24 ∨ s.size = 0#24 then .next (respond .ok 0#24 [] s)
  else deliverServed (min len.toNat s.size.toNat) s

end Sys2Proof.Machine
end

