-- ==== Sys2Proof/Machine/Flags.lean ====
section
/-! DEFINITION. The derived flags: EMPTY and FULL (10_state.md R118), the session state (R112), the guards of pending
commands (20_memory.md R211, 41_coordinator.md R501, R503), the waiting bits and the STATUS value (42_status_debug.md R600). -/

namespace Sys2Proof.Machine

/-- EMPTY (R118). -/
def emptyFlag (s : State) : Bool := s.constructed && s.size == 0#24

/-- FULL (R118). -/
def fullFlag (s : State) : Bool := s.constructed && s.size == s.capacity

/-- The session states (R112, R500). -/
inductive Session where
  | unconstructed
  | running
  | producerDone
  | terminated
  deriving DecidableEq, Repr

/-- The session state the flags stand for; `none` for the combinations R112 calls unreachable. -/
def session (s : State) : Option Session :=
  match s.constructed, s.producerDone, s.consumerExited with
  | false, false, false => some .unconstructed
  | true, false, false => some .running
  | true, true, false => some .producerDone
  | true, true, true => some .terminated
  | _, _, _ => none

/-- The guard of a legal operation on a port (R211, R501, R503). -/
def guardOf (q : Port) (i : Instr) (s : State) : Bool :=
  match i with
  | .produce len => (commonCheck q i s).isSome || s.producerDone || decide (len.toNat ≤ avail s)
  | .consume _ => (commonCheck q i s).isSome || decide (0 < s.size.toNat) || s.producerDone
  | .construct _ | .destroy | .capacity | .size | .avail | .write _ | .read _ | .signalProducerDone
  | .status | .head | .tail => true

/-- Whether `complete(p)` is enabled: the slot holds a command whose guard holds; an illegal word never waits (R211). -/
def completeEnabled (q : Port) (s : State) : Bool :=
  match s.pend.get q with
  | none => false
  | some c =>
    match decode c.word with
    | .ok i => guardOf q i s
    | .error _ => true

/-- P_WAITING: PEND_P holds a PRODUCE whose guard is false (R600). -/
def pWaiting (s : State) : Bool :=
  match s.pend.get .p with
  | none => false
  | some c =>
    match decode c.word with
    | .ok (.produce len) => !guardOf .p (.produce len) s
    | _ => false

/-- C_WAITING: PEND_C holds a CONSUME whose guard is false (R600). -/
def cWaiting (s : State) : Bool :=
  match s.pend.get .c with
  | none => false
  | some c =>
    match decode c.word with
    | .ok (.consume max) => !guardOf .c (.consume max) s
    | _ => false

/-- The 24-bit STATUS value, its fields from bit 23 down (R600). -/
def statusValue (s : State) : Count :=
  0#10 ++ BitVec.ofBool (cWaiting s) ++ BitVec.ofBool (pWaiting s) ++ s.faultCode ++ 0#2 ++ BitVec.ofBool s.fault
    ++ BitVec.ofBool (fullFlag s) ++ BitVec.ofBool (emptyFlag s) ++ BitVec.ofBool s.consumerExited
    ++ BitVec.ofBool s.producerDone ++ BitVec.ofBool s.constructed

end Sys2Proof.Machine
end

