-- ==== Sys2Proof/Machine/Coordinator.lean ====
section
/-! DEFINITION. The Handoff Coordinator operations (41_coordinator.md): PRODUCE, CONSUME, SIGNAL_PRODUCER_DONE. -/

namespace Sys2Proof.Machine

/-- A PRODUCE that completes without room because PRODUCER_DONE is set (R502). -/
def shutdownComplete (len : Count) (s : State) : Result :=
  match s.params.policy with
  | .truncate => writeBody len s
  | .drop => .next (respond .chunkDropped 0#24 [] s)

/-- PRODUCE (R501): the whole chunk where there is room, R502 at shutdown, else the command stays pending and the state stays
as it is (R211, R505). -/
def execProduce (len : Count) (s : State) : Result :=
  checked (.produce len) s fun s =>
    if len.toNat ≤ avail s then
      if len = 0#24 then .next (respond .ok 0#24 [] s) else storeServed len.toNat s
    else if s.producerDone then shutdownComplete len s
    else .next s

/-- CONSUME (R503): data where there is some, END_OF_DATA once PRODUCER_DONE is set and nothing is held, else the command
stays pending and the state stays as it is (R211, R505). -/
def execConsume (max : Count) (s : State) : Result :=
  checked (.consume max) s fun s =>
    if s.size = 0#24 then
      if s.producerDone then .next (respond .endOfData sentinel [] { s with consumerExited := true }) else .next s
    else readBody max s

/-- SIGNAL_PRODUCER_DONE (R504). -/
def execSignalProducerDone (s : State) : Result :=
  checked .signalProducerDone s fun s => .next (respond .ok 0#24 [] { s with producerDone := true })

end Sys2Proof.Machine
end

