-- ==== Sys2Proof/Machine/Observe.lean ====
section
/-! DEFINITION. The observation operations (42_status_debug.md): STATUS, HEAD, TAIL. -/

namespace Sys2Proof.Machine

/-- STATUS (R600): exempt from the NO_BUFFER check. -/
def execStatus (s : State) : Result :=
  checked .status s fun s => .next (respond .ok (statusValue s) [] s)

/-- HEAD (R601). -/
def execHead (s : State) : Result :=
  checked .head s fun s => .next (respond .ok s.head [] s)

/-- TAIL (R602). -/
def execTail (s : State) : Result :=
  checked .tail s fun s => .next (respond .ok s.tail [] s)

end Sys2Proof.Machine
end

