-- ==== Sys2Proof/Machine/RingBuffer.lean ====
section
/-! DEFINITION. The RingBuffer operations (40_ringbuffer.md): CONSTRUCT, CAPACITY, SIZE, AVAIL, WRITE, READ, DESTROY. -/

namespace Sys2Proof.Machine

/-- A new, empty session; STORAGE is not written (R401). -/
def openSession (cap : Count) (s : State) : State :=
  { s with
    constructed := true
    capacity := cap
    size := 0#24
    head := 0#24
    tail := 0#24
    producerDone := false
    consumerExited := false }

/-- The session ended and the bytes of STORAGE unspecified, which is a new draw; FAULT and FAULT_CODE stay (R408). -/
def closeSession (s : State) : State :=
  { s with
    constructed := false
    capacity := 0#24
    size := 0#24
    head := 0#24
    tail := 0#24
    producerDone := false
    consumerExited := false
    storage := []
    draw := s.draw + 1 }

/-- CONSTRUCT (R401): its own checks in the order of the rule, then a new session. -/
def execConstruct (cap : Count) (s : State) : Result :=
  checked (.construct cap) s fun s =>
    if s.constructed then .next (raise .alreadyConstructed s)
    else if cap = 0#24 ∨ s.params.capLimit ≤ cap.toNat then .next (respond .invalidArgument 0#24 [] s)
    else if s.params.memBytes < cap.toNat then .next (respond .outOfMemory 0#24 [] s)
    else .next (respond .ok cap [] (openSession cap s))

/-- DESTROY (R408): blocked commands on P and C are aborted, then the session ends. -/
def execDestroy (s : State) : Result :=
  checked .destroy s fun s => .next (respond .ok 0#24 [] (closeSession (abort .c (abort .p s))))

/-- CAPACITY (R402). -/
def execCapacity (s : State) : Result :=
  checked .capacity s fun s => .next (respond .ok s.capacity [] s)

/-- SIZE (R403). -/
def execSize (s : State) : Result :=
  checked .size s fun s => .next (respond .ok s.size [] s)

/-- AVAIL (R404). -/
def execAvail (s : State) : Result :=
  checked .avail s fun s => .next (respond .ok (BitVec.ofNat 24 (avail s)) [] s)

/-- WRITE (R406): never waits. -/
def execWrite (len : Count) (s : State) : Result :=
  checked (.write len) s (writeBody len)

/-- READ (R407): never waits, and never ends the session. -/
def execRead (len : Count) (s : State) : Result :=
  checked (.read len) s (readBody len)

end Sys2Proof.Machine
end

