-- ==== Sys2Proof/Machine/Dispatch.lean ====
section
/-! DEFINITION. One arm per operation: the `complete` step of the served port's legal command (20_memory.md R211). -/

namespace Sys2Proof.Machine

def exec (i : Instr) (s : State) : Host.Outcome State Fault Refusal :=
  match i with
  | .construct cap => Sys2Proof.Machine.execConstruct cap s
  | .destroy => Sys2Proof.Machine.execDestroy s
  | .capacity => Sys2Proof.Machine.execCapacity s
  | .size => Sys2Proof.Machine.execSize s
  | .avail => Sys2Proof.Machine.execAvail s
  | .write len => Sys2Proof.Machine.execWrite len s
  | .read len => Sys2Proof.Machine.execRead len s
  | .produce len => Sys2Proof.Machine.execProduce len s
  | .consume max => Sys2Proof.Machine.execConsume max s
  | .signalProducerDone => Sys2Proof.Machine.execSignalProducerDone s
  | .status => Sys2Proof.Machine.execStatus s
  | .head => Sys2Proof.Machine.execHead s
  | .tail => Sys2Proof.Machine.execTail s

end Sys2Proof.Machine
end

