-- ==== Sys2Proof/Machine/Schedule.lean ====
section
/-! DEFINITION. What one turn does (20_memory.md R211, R212): a port's `accept` or `complete`, or a reset; and where a table
word is placed so that the next step runs it. -/

namespace Sys2Proof.Machine

/-- `complete(p)` for the command in the served slot: the format check (60_exceptions.md R702 step 1), then the operation. -/
def complete (cmd : Command) (s : State) : Result :=
  match decode cmd.word with
  | .error _ => .next (raise .illegalCommand s)
  | .ok i => exec i s

/-- One turn: a port with an empty slot accepts, a port with a pending command completes it or waits (R211). -/
def act (t : Turn) (s : State) : Result :=
  match t with
  | .reset => .next (resetPulse s)
  | .port q =>
    match s.pend.get q with
    | none => .next (accept q (serve q s))
    | some cmd => complete cmd (serve q s)

/-- The port a table word is placed on: the first that may issue it, H for an illegal word. -/
def placePort (w : Word) : Port :=
  match decode w with
  | .ok i => (portRights i).headD .h
  | .error _ => .h

/-- A word, with a payload of zeros where it takes one, in a slot, and that port's turn next. -/
def placeWord (w : Word) (s : State) : State :=
  { s with
    pend := s.pend.set (placePort w) (some ⟨w, List.replicate (payloadLen (placePort w) w) 0#8⟩)
    turns := .port (placePort w) :: s.turns }

end Sys2Proof.Machine
end

