-- ==== Sys2Proof/Machine/Step.lean ====
section
/-! DEFINITION. One step of RBUF: the next turn of the schedule is taken (20_memory.md R211, R213). -/

namespace Sys2Proof.Machine

/-- One step. -/
def step (s : State) : Host.Outcome State Fault Refusal := act (nextTurn s) (advance s)

/-- The state with an instruction of spec/opcode_table.json placed where the next step takes its command from: a port's slot,
that port's turn named (notes/assumptions/8.md). -/
def State.withFetchWord (s : State) (_nbits w : Nat) : State := placeWord (BitVec.ofNat 32 w) s

end Sys2Proof.Machine
end

