-- ==== Sys2Proof/WellFormed.lean ====
section
/-! DEFINITION. When a transaction is well formed (30_encoding.md R300, R309, R311, R312): a WRITE or PRODUCE on port P comes
with exactly as many payload bytes as its operand says, and nothing else carries a payload. Every operand is a 24-bit value
by its type, so an operation by itself has no further check. -/

namespace Sys2Proof

/-- A legal operation presented on a port is followed by exactly the payload R309 gives it. -/
def WellFormed (q : Port) (i : Instr) (payload : List Byte) : Bool :=
  match i with
  | .write len | .produce len =>
    match q with
    | .p => payload.length == len.toNat
    | .c | .h => payload.isEmpty
  | .construct _ | .destroy | .capacity | .size | .avail | .read _ | .consume _ | .signalProducerDone
  | .status | .head | .tail => payload.isEmpty

end Sys2Proof
end

