-- ==== Sys2Proof/Safety.lean ====
section
/-! DEFINITION. What counts as a legal state and a run of RBUF, in the terms the statements use: the invariant (10_state.md R100,
R108, R112, R115), the stored bytes (R108), enabled steps and weak fairness (20_memory.md R211, R214), the end of a session run
(70_reset_and_hazards.md R822), runs over a schedule (R213), and what a step sends, stores and delivers (R217, R224). -/

namespace Sys2Proof.Machine

/-! ## Legal states -/

/-- The ring registers of a constructed buffer (R100, R108). -/
abbrev RingLegal (s : State) : Prop :=
  1 ≤ s.capacity.toNat ∧ s.capacity.toNat < s.params.capLimit ∧ s.capacity.toNat ≤ s.params.memBytes
    ∧ s.size.toNat ≤ s.capacity.toNat ∧ s.head.toNat < s.capacity.toNat
    ∧ s.tail.toNat = (s.head.toNat + s.size.toNat) % s.capacity.toNat

/-- The fields of an unconstructed block (R100, R112). -/
abbrev IdleLegal (s : State) : Prop :=
  s.capacity = 0#24 ∧ s.size = 0#24 ∧ s.head = 0#24 ∧ s.tail = 0#24 ∧ s.producerDone = false ∧ s.consumerExited = false

/-- FAULT and FAULT_CODE agree (R113, R114). -/
abbrev FaultLegal (s : State) : Prop :=
  if s.fault then s.faultCode ∈ [0x5#4, 0x6#4, 0x7#4, 0x8#4] else s.faultCode = 0#4

/-- A slot holds the payload its command calls for, and no other (R115, R309). -/
abbrev SlotLegal (q : Port) (slot : Option Command) : Prop :=
  ∀ cmd ∈ slot, cmd.payload.length = payloadLen q cmd.word

/-- Every occupied index holds a specified byte, and no index outside the ring region is listed (R108, R109, R206). -/
abbrev StorageLegal (s : State) : Prop :=
  Memory.wf s.storage ∧ (∀ x ∈ s.storage, x.1 < s.capacity.toNat)
    ∧ ∀ i < s.size.toNat, (Memory.lookup ((s.head.toNat + i) % s.capacity.toNat) s.storage).isSome = true

/-- The legal states: R100's legal values and R108's invariant, with the slots and the listed bytes of the model. -/
structure Inv (s : State) : Prop where
  params : s.params.Legal
  idle : s.constructed = false → IdleLegal s
  ring : s.constructed = true → RingLegal s
  exited : s.consumerExited = true → s.producerDone = true
  fault : FaultLegal s
  slots : ∀ q, SlotLegal q (s.pend.get q)
  storage : StorageLegal s

/-- The bytes held, oldest first: the `SIZE` bytes at `(HEAD + i) mod CAPACITY` (R108). -/
def contents (s : State) : List Byte :=
  (List.range s.size.toNat).map fun i => memRead s ((s.head.toNat + i) % s.capacity.toNat)

/-! ## Enabled steps, fairness, end of a run -/

/-- Whether a port's `accept` is enabled: its slot is empty and a command with its whole payload is presented (R211). -/
def acceptEnabled (q : Port) (s : State) : Bool :=
  cmdReady q s &&
    match s.inbox.get q with
    | [] => false
    | w :: _ => decide (payloadLen q w ≤ s.wdata.length)

/-- A run: each state is reached from the one before by one turn (R211, R213). DESIGN CHOICE, unsafe (notes/assumptions/13.md): the
agents present only what the first state's finite queues hold, so a run in which commands never cease is none of these; the spec
sets no such bound (60_exceptions.md R710). -/
def IsRun (turnAt : Nat → Turn) (stateAt : Nat → State) : Prop :=
  ∀ n, act (turnAt n) (stateAt n) = .next (stateAt (n + 1))

/-- Weak fairness: a `complete(p)` that stays enabled is eventually taken (R214). -/
def WeaklyFair (turnAt : Nat → Turn) (stateAt : Nat → State) : Prop :=
  ∀ q n, (∀ m, n ≤ m → completeEnabled q (stateAt m) = true) → ∃ m, n ≤ m ∧ turnAt m = .port q

/-- A session run is complete: the consumer has exited and nothing is pending (R822). -/
abbrev SessionComplete (s : State) : Prop :=
  s.consumerExited = true ∧ s.pend = ⟨none, none, none⟩

/-- A run is stuck: something is pending, and on no port is an accept or a complete enabled (R822, R818). A word queued behind a
full slot is one its agent cannot issue (92_eei_decisions.md D12), and one whose payload is withheld is not accepted (R817). What is
not queued no agent issues (notes/assumptions/13.md). -/
abbrev Stuck (s : State) : Prop :=
  s.pend ≠ ⟨none, none, none⟩ ∧ ∀ q, acceptEnabled q s = false ∧ completeEnabled q s = false

/-- The state after a schedule of turns, if no turn stops (R213). -/
def runTurns : List Turn → State → Option State
  | [], s => some s
  | t :: ts, s =>
    match act t s with
    | .next s' => runTurns ts s'
    | .fault _ => none
    | .refused _ => none

/-! ## What a step sends, stores and delivers -/

/-- The events a step added to a port's observation (R224). -/
def newEvents (q : Port) (s s' : State) : List Event := (s'.trace.get q).drop (s.trace.get q).length

/-- The bytes a step stored: the first `VAL` payload bytes of the WRITE or PRODUCE it answered OK on P (R217). -/
def storedBy (s s' : State) : List Byte :=
  match s.pend.get .p, newEvents .p s s' with
  | some cmd, [.response r] =>
    match decode cmd.word with
    | .ok (.write _) | .ok (.produce _) => if stField r.word = 0x0#4 then cmd.payload.take (valField r.word).toNat else []
    | _ => []
  | _, _ => []

/-- The bytes a step delivered: the read data of the response it sent on C (R217, R310). -/
def deliveredBy (s s' : State) : List Byte :=
  match newEvents .c s s' with
  | [.response r] => r.data
  | _ => []

/-- The bytes stored and the bytes delivered along a schedule, while the session lasts: `none` once a turn stops or leaves the
block unconstructed (R217, R506). -/
def streams : List Turn → State → Option (List Byte × List Byte × State)
  | [], s => some ([], [], s)
  | t :: ts, s =>
    match act t s with
    | .next s' =>
      if s'.constructed then
        match streams ts s' with
        | some (ins, outs, last) => some (storedBy s s' ++ ins, deliveredBy s s' ++ outs, last)
        | none => none
      else none
    | .fault _ => none
    | .refused _ => none

/-! ## Answers, in numbers -/

/-- A response word by its numbers: `ST` in bits 31:28, `VAL` in bits 23:0 (R307). -/
def replyWord (st val : Nat) : Word := BitVec.ofNat 32 (st * 2 ^ 28 + val)

/-- What a response word says: its status and its value, whatever else its bits hold (R307). -/
abbrev IsReply (w : Word) (st val : Nat) : Prop := (stField w).toNat = st ∧ (valField w).toNat = val

/-- The turn answered C with END_OF_DATA, SENTINEL, and no data (R503, R12). -/
def EndsOfData (s t : State) : Prop :=
  ∃ w, IsReply w 2 0xFFFFFF ∧ t.trace.get .c = s.trace.get .c ++ [.response ⟨w, []⟩]

/-- The state once a port has been answered: its slot is empty and its observation has the response (R115, R211, R224). -/
def answered (q : Port) (w : Word) (data : List Byte) (s : State) : State :=
  { s with
    pend := s.pend.set q none
    trace := s.trace.set q (s.trace.get q ++ [.response ⟨w, data⟩]) }

/-- The state once a fault code has been recorded: the first since reset stays (R703). -/
def faulted (code : Nat) (s : State) : State :=
  { s with
    fault := true
    faultCode := if s.fault then s.faultCode else BitVec.ofNat 4 code }

/-! ## Shapes of statements -/

/-- An operation's one legal word has a zero operand (R303, R306). -/
def TakesNoOperand (op : Nat) (i : Instr) : Prop :=
  decode (BitVec.ofNat 32 (op * 2 ^ 28)) = .ok i
    ∧ ∀ n : Count, n.toNat ≠ 0 → decode (BitVec.ofNat 32 (op * 2 ^ 28 + n.toNat)) = .error .operandNotZero

/-- An operation never waits: its guard is true on every port in every state (R211). -/
def NeverWaits (i : Instr) : Prop := ∀ (q : Port) (s : State), guardOf q i s = true

/-- An operation on any port but those listed is answered ILLEGAL_COMMAND, a fault, and does nothing else (R702 step 2, R709). -/
def IllegalOffPorts (i : Instr) (ports : List Port) : Prop :=
  ∀ s, s.served ∉ ports → exec i s = .next (answered s.served 0x70000000#32 [] (faulted 7 s))

/-- Without a buffer an operation on a port that may issue it is answered NO_BUFFER, a fault, and does nothing else (R702
step 3). -/
def NoBufferOnPorts (i : Instr) (ports : List Port) : Prop :=
  ∀ s, s.served ∈ ports → s.constructed = false → exec i s = .next (answered s.served 0x50000000#32 [] (faulted 5 s))

/-- A storage that holds the first `n` of some bytes at `(TAIL + i) mod CAPACITY` and is unchanged everywhere else (R202, R405). -/
def StoresAtTail (n : Nat) (bytes : List Byte) (s : State) (st : Memory) : Prop :=
  (∀ i < n, Memory.lookup ((s.tail.toNat + i) % s.capacity.toNat) st = bytes[i]?)
    ∧ ∀ a, (∀ i < n, a ≠ (s.tail.toNat + i) % s.capacity.toNat) → Memory.lookup a st = Memory.lookup a s.storage

/-- The state once `n` of some bytes are held at the tail and their count is answered (R406, R501). -/
def storedAndAnswered (n : Nat) (s : State) (st : Memory) : State :=
  answered .p (replyWord 0 n) []
    { s with
      storage := st
      tail := BitVec.ofNat 24 ((s.tail.toNat + n) % s.capacity.toNat)
      size := BitVec.ofNat 24 (s.size.toNat + n) }

/-- The state once the oldest `n` bytes are delivered with their count (R407, R503). -/
def deliveredAndAnswered (n : Nat) (s : State) : State :=
  answered .c (replyWord 0 n) ((contents s).take n)
    { s with
      head := BitVec.ofNat 24 ((s.head.toNat + n) % s.capacity.toNat)
      size := BitVec.ofNat 24 (s.size.toNat - n) }

/-- A turn is the completion of an operation on a port: the port's slot holds its word (R211). -/
def Completing (u : Turn) (q : Port) (i : Instr) (s : State) : Prop :=
  u = .port q ∧ ∃ cmd, s.pend.get q = some cmd ∧ decode cmd.word = .ok i

/-- The slots and observations of every port but one are unchanged. -/
def OtherPortsKept (q : Port) (s t : State) : Prop :=
  ∀ r, r ≠ q → t.pend.get r = s.pend.get r ∧ t.trace.get r = s.trace.get r

/-- Every byte of STORAGE reads as before, the unspecified ones too, which is the model's choice (notes/assumptions/1.md). -/
def BytesKept (s t : State) : Prop := ∀ a, memRead t a = memRead s a

end Sys2Proof.Machine
end

