-- ==== Sys2Proof/Certificates/Slice0/Obligations.lean ====
section
/-! DEFINITION. The statements about RBUF, for the provers. -/

open Sys2Proof Sys2Proof.Machine

/-! ## Encoding -/

/-- 30_encoding.md R316: the format decoder is total and rejects a word by the first check that fails: reserved opcode (R304),
`RSV ≠ 0` (R305), a nonzero must-be-zero operand (R306); every other word is `Op(OP, OPND)`. -/
def Obligations.DecoderRejectsExactlyTheIllegalWords : Prop :=
  ∀ w : Word,
    let op := w.toNat / 2 ^ 28
    let rsv := w.toNat / 2 ^ 24 % 16
    let opnd := w.toNat % 2 ^ 24
    let reserved := op = 0 ∨ op = 14 ∨ op = 15
    (decode w = .error .reservedOpcode ↔ reserved)
      ∧ (decode w = .error .reservedBits ↔ ¬reserved ∧ rsv ≠ 0)
      ∧ (decode w = .error .operandNotZero ↔ ¬reserved ∧ rsv = 0 ∧ op ∈ [2, 3, 4, 5, 10, 11, 12, 13] ∧ opnd ≠ 0)
      ∧ ((∃ i, decode w = .ok i) ↔ ¬reserved ∧ rsv = 0 ∧ (op ∈ [2, 3, 4, 5, 10, 11, 12, 13] → opnd = 0))
      ∧ ∀ i, decode w = .ok i → (encode i).toNat / 2 ^ 28 = op ∧ (encode i).toNat % 2 ^ 24 = opnd

/-- 30_encoding.md R303: every row of the opcode map, by numbers: the operation each opcode selects, its operand, its ports and its
payload on P; the reserved opcodes select none. -/
def Obligations.OpcodeMapSelectsOperationsByNumber : Prop :=
  ∀ n : Count,
    let word (op : Nat) : Word := BitVec.ofNat 32 (op * 2 ^ 28 + n.toNat)
    let bare (op : Nat) : Word := BitVec.ofNat 32 (op * 2 ^ 28)
    let row (w : Word) (i : Instr) (name : String) (ports : List Port) (payload : Nat) : Prop :=
      decode w = .ok i ∧ mnemonic i = name ∧ portRights i = ports ∧ payloadLen .p w = payload
        ∧ payloadLen .c w = 0 ∧ payloadLen .h w = 0
    row (word 0x1) (.construct n) "CONSTRUCT" [.h] 0
      ∧ row (bare 0x2) .destroy "DESTROY" [.h] 0
      ∧ row (bare 0x3) .capacity "CAPACITY" [.p, .c, .h] 0
      ∧ row (bare 0x4) .size "SIZE" [.p, .c, .h] 0
      ∧ row (bare 0x5) .avail "AVAIL" [.p, .c, .h] 0
      ∧ row (word 0x6) (.write n) "WRITE" [.p] n.toNat
      ∧ row (word 0x7) (.read n) "READ" [.c] 0
      ∧ row (word 0x8) (.produce n) "PRODUCE" [.p] n.toNat
      ∧ row (word 0x9) (.consume n) "CONSUME" [.c] 0
      ∧ row (bare 0xA) .signalProducerDone "SIGNAL_PRODUCER_DONE" [.p, .h] 0
      ∧ row (bare 0xB) .status "STATUS" [.p, .c, .h] 0
      ∧ row (bare 0xC) .head "HEAD" [.p, .c, .h] 0
      ∧ row (bare 0xD) .tail "TAIL" [.p, .c, .h] 0
      ∧ decode (word 0x0) = .error .reservedOpcode
      ∧ decode (word 0xE) = .error .reservedOpcode
      ∧ decode (word 0xF) = .error .reservedOpcode

/-- Decode and encode agree: every operation, with every operand, is read back from its word (30_encoding.md sections 2 and 7). -/
def Obligations.DecodeOfEncodeIsTheOperation : Prop := ∀ i : Instr, decode (encode i) = .ok i

/-- Each legal word has one meaning: the operation read from it has that word as its encoding, so no bit of it is dropped
(30_encoding.md sections 2 and 7). -/
def Obligations.EncodeOfDecodeIsTheWord : Prop := ∀ (w : Word) (i : Instr), decode w = .ok i → encode i = w

/-- Words of 95_test_vectors.md decode to the operations they stand for. -/
def Obligations.SampleWordsDecode : Prop :=
  decode 0x10001000#32 = .ok (.construct 4096#24)
    ∧ decode 0x60000005#32 = .ok (.write 5#24)
    ∧ decode 0x7000000A#32 = .ok (.read 10#24)
    ∧ decode 0x80000800#32 = .ok (.produce 2048#24)
    ∧ decode 0x90002000#32 = .ok (.consume 8192#24)
    ∧ decode 0xA0000000#32 = .ok .signalProducerDone
    ∧ decode 0xB0000000#32 = .ok .status
    ∧ decode 0xD0000000#32 = .ok .tail
    ∧ decode 0x31000000#32 = .error .reservedBits

/-! ## Steps -/

/-- A step runs the decoded operation (20_memory.md section 3): where the schedule's next turn is a port whose slot holds a
legal word, step is exec of its operation, with that turn used up and that port served. Every operation is well formed by its
type. -/
def Obligations.StepRunsTheDecodedOperation : Prop :=
  ∀ (s : State) (q : Port) (ts : List Turn) (cmd : Command) (i : Instr),
    s.turns = .port q :: ts → s.pend.get q = some cmd → decode cmd.word = .ok i →
      step s = exec i { s with turns := ts, tick := s.tick + 1, served := q }

/-- Accepting (20_memory.md section 3, 30_encoding.md section 4): a port with an empty slot takes the next word its agent
presents, with exactly the payload the word calls for, once all of it is presented; the slot then holds a well-formed
transaction, the rest of the stream stays, and nothing else changes. While the payload is not all there, nothing is taken. That the
payload waits in one byte stream is the model's reading, notes/assumptions/4.md. -/
def Obligations.AcceptTakesTheWordAndItsWholePayload : Prop :=
  ∀ (s : State) (q : Port) (w : Word) (rest : List Word), s.pend.get q = none → s.inbox.get q = w :: rest →
    (payloadLen q w ≤ s.wdata.length →
      ∃ bytes later, s.wdata = bytes ++ later ∧ bytes.length = payloadLen q w
        ∧ (∀ i, decode w = .ok i → WellFormed q i bytes = true)
        ∧ act (.port q) s = .next
            { s with
              served := q
              pend := s.pend.set q (some ⟨w, bytes⟩)
              inbox := s.inbox.set q rest
              wdata := later
              trace := s.trace.set q (s.trace.get q ++ [.command ⟨w, bytes⟩]) })
      ∧ (s.wdata.length < payloadLen q w → act (.port q) s = .next { s with served := q })

/-- Completing (20_memory.md section 3): from a legal state, a pending command whose guard holds is answered in its port's turn, with one
response, and its slot is emptied; one whose guard is false stays pending and nothing changes. -/
def Obligations.EnabledCommandsAreAnsweredInTheirTurn : Prop :=
  ∀ (s : State) (q : Port), Inv s → s.pend.get q ≠ none →
    (completeEnabled q s = true →
      ∃ t r, act (.port q) s = .next t ∧ t.pend.get q = none ∧ t.trace.get q = s.trace.get q ++ [.response r])
      ∧ (completeEnabled q s = false → act (.port q) s = .next { s with served := q })

/-- 30_encoding.md R304 with R305 and R306: an illegal word is answered ILLEGAL_COMMAND in its port's turn, whatever the port and the
state; the fault is recorded and nothing else changes; no payload is taken with it. -/
def Obligations.IllegalWordsAreAnsweredIllegalCommand : Prop :=
  ∀ (w : Word),
    (w.toNat / 2 ^ 28 ∈ [0, 14, 15] ∨ w.toNat / 2 ^ 24 % 16 ≠ 0
      ∨ (w.toNat / 2 ^ 28 ∈ [2, 3, 4, 5, 10, 11, 12, 13] ∧ w.toNat % 2 ^ 24 ≠ 0)) →
      (∀ q, payloadLen q w = 0)
        ∧ ∀ (s : State) (q : Port) (bytes : List Byte), s.pend.get q = some ⟨w, bytes⟩ →
            completeEnabled q s = true
              ∧ act (.port q) s = .next (answered q 0x70000000#32 [] (faulted 7 { s with served := q }))

/-- 60_exceptions.md R709: an operation on a port outside its row of the table is answered ILLEGAL_COMMAND; no operation is kept from
a port inside it by this check. -/
def Obligations.PortRightsAreTheTable : Prop :=
  (∀ cap, IllegalOffPorts (.construct cap) [.h]) ∧ IllegalOffPorts .destroy [.h]
    ∧ (∀ len, IllegalOffPorts (.write len) [.p]) ∧ (∀ len, IllegalOffPorts (.produce len) [.p])
    ∧ (∀ len, IllegalOffPorts (.read len) [.c]) ∧ (∀ len, IllegalOffPorts (.consume len) [.c])
    ∧ IllegalOffPorts .signalProducerDone [.p, .h]
    ∧ ∀ (i : Instr) (s : State) (t : State), exec i s = .next t →
        t.trace.get s.served = s.trace.get s.served ++ [.response ⟨0x70000000#32, []⟩] →
          match i with
          | .construct _ | .destroy => s.served ≠ .h
          | .write _ | .produce _ => s.served ≠ .p
          | .read _ | .consume _ => s.served ≠ .c
          | .signalProducerDone => s.served = .c
          | .capacity | .size | .avail | .status | .head | .tail => False

/-- 60_exceptions.md section 1 (common checks, step 3): without a buffer every operation but CONSTRUCT and STATUS is answered
NO_BUFFER on the ports that may issue it, a PRODUCE or CONSUME without waiting. -/
def Obligations.WithoutABufferOperationsAnswerNoBuffer : Prop :=
  NoBufferOnPorts .destroy [.h] ∧ NoBufferOnPorts .capacity [.p, .c, .h] ∧ NoBufferOnPorts .size [.p, .c, .h]
    ∧ NoBufferOnPorts .avail [.p, .c, .h] ∧ (∀ len, NoBufferOnPorts (.write len) [.p])
    ∧ (∀ len, NoBufferOnPorts (.read len) [.c]) ∧ (∀ len, NoBufferOnPorts (.produce len) [.p])
    ∧ (∀ len, NoBufferOnPorts (.consume len) [.c]) ∧ NoBufferOnPorts .signalProducerDone [.p, .h]
    ∧ NoBufferOnPorts .head [.p, .c, .h] ∧ NoBufferOnPorts .tail [.p, .c, .h]

/-! ## Reset -/

/-- 10_state.md section 6: the value of every field after reset; no byte of STORAGE is specified. -/
def Obligations.ResetLeavesTheTableOfValues : Prop :=
  State.reset.constructed = false ∧ State.reset.capacity = 0#24 ∧ State.reset.size = 0#24 ∧ State.reset.head = 0#24
    ∧ State.reset.tail = 0#24 ∧ (∀ a, Memory.lookup a State.reset.storage = none) ∧ State.reset.producerDone = false
    ∧ State.reset.consumerExited = false ∧ State.reset.fault = false ∧ State.reset.faultCode = 0#4
    ∧ ∀ q, State.reset.pend.get q = none

/-- A reset at any time gives every field of RBUF its reset value again and drops every pending command without a response, and
leaves no byte of STORAGE specified (70_reset_and_hazards.md section 1). That the agents' queues, the observation and the
parameters stay is the model's choice, notes/assumptions/9.md. -/
def Obligations.ResetPulseRestoresTheResetValues : Prop :=
  ∀ s : State, ∃ t, act .reset s = .next t
    ∧ t = { State.reset with
            params := s.params, inbox := s.inbox, wdata := s.wdata, trace := s.trace, turns := s.turns, tick := s.tick,
            served := s.served, draw := t.draw }
    ∧ session t = some .unconstructed ∧ ∀ q, cmdReady q t = true

/-- 70_reset_and_hazards.md section 1: after reset there is no session, every port is ready, STATUS answers 0x00000000 on every port, and
every operation but CONSTRUCT and STATUS on a port that may issue it is answered NO_BUFFER. -/
def Obligations.AfterResetOnlyConstructAndStatusWork : Prop :=
  session State.reset = some .unconstructed ∧ (∀ q, cmdReady q State.reset = true)
    ∧ (∀ q bytes, exec .status { State.reset with served := q, pend := State.reset.pend.set q (some ⟨0xB0000000#32, bytes⟩) }
        = .next (answered q 0x00000000#32 [] { State.reset with served := q }))
    ∧ ∀ (i : Instr) (q : Port) (cmd : Command), q ∈ portRights i → i ≠ .status → (∀ cap, i ≠ .construct cap) →
        exec i { State.reset with served := q, pend := State.reset.pend.set q (some cmd) }
          = .next (answered q 0x50000000#32 [] (faulted 5 { State.reset with served := q }))

/-! ## CONSTRUCT and DESTROY -/

/-- 40_ringbuffer.md R401: CONSTRUCT on H, its checks in the order of the rule: ALREADY_CONSTRUCTED, a fault; INVALID_ARGUMENT for 0 and
from `CAP_LIMIT` on; OUT_OF_MEMORY beyond `MEM_BYTES`; each changes nothing else. With any other capacity it starts an empty session,
leaves STORAGE as it is and answers the capacity. It never waits, and off H it is ILLEGAL_COMMAND. -/
def Obligations.ConstructOpensASessionOrFailsInOrder : Prop :=
  (∀ cap : Count, decode (BitVec.ofNat 32 (0x10000000 + cap.toNat)) = .ok (.construct cap)
      ∧ IllegalOffPorts (.construct cap) [.h] ∧ NeverWaits (.construct cap))
    ∧ ∀ (s : State) (cap : Count), s.served = .h →
        (s.constructed = true → exec (.construct cap) s = .next (answered .h 0x60000000#32 [] (faulted 6 s)))
          ∧ (s.constructed = false → (cap.toNat = 0 ∨ s.params.capLimit ≤ cap.toNat) →
              exec (.construct cap) s = .next (answered .h 0x30000000#32 [] s))
          ∧ (s.constructed = false → 1 ≤ cap.toNat → cap.toNat < s.params.capLimit → s.params.memBytes < cap.toNat →
              exec (.construct cap) s = .next (answered .h 0x40000000#32 [] s))
          ∧ (s.constructed = false → 1 ≤ cap.toNat → cap.toNat < s.params.capLimit → cap.toNat ≤ s.params.memBytes →
              ∃ t, exec (.construct cap) s = .next t
                ∧ t = answered .h (replyWord 0 cap.toNat) []
                    { s with
                      constructed := true, capacity := cap, size := 0#24, head := 0#24, tail := 0#24,
                      producerDone := false, consumerExited := false }
                ∧ session t = some .running ∧ emptyFlag t = true ∧ fullFlag t = false)

/-- 00_scope.md R17: a CONSTRUCT succeeds exactly with a capacity from 1 to `min(CAP_LIMIT - 1, MEM_BYTES)`, and at the default
parameters that is 65536. -/
def Obligations.LargestConstructibleCapacity : Prop :=
  (∀ (s : State) (cap : Count), s.params.Legal → s.served = .h → s.constructed = false →
    ((∃ t, exec (.construct cap) s = .next t ∧ t.constructed = true)
      ↔ 1 ≤ cap.toNat ∧ cap.toNat ≤ min (s.params.capLimit - 1) s.params.memBytes))
    ∧ min (Params.default.capLimit - 1) Params.default.memBytes = 65536

/-- DESTROY on H ends the session whatever is stored: every session field is cleared, no byte of STORAGE stays specified, a
pending PRODUCE or CONSUME on P or C is answered ABORTED, which is a fault, any other pending command and the earlier fault record
stay, and OK 0 is answered (40_ringbuffer.md section 6). Which pending commands it aborts is read literally,
notes/assumptions/7.md. -/
def Obligations.DestroyEndsTheSessionAndAborts : Prop :=
  ∀ s : State, s.served = .h → s.constructed = true →
    let blocked (q : Port) : Bool := holdsBlocking (s.pend.get q)
    ∃ t, exec .destroy s = .next t
      ∧ t.constructed = false ∧ t.capacity = 0#24 ∧ t.size = 0#24 ∧ t.head = 0#24 ∧ t.tail = 0#24
      ∧ t.producerDone = false ∧ t.consumerExited = false ∧ session t = some .unconstructed
      ∧ (∀ a, Memory.lookup a t.storage = none)
      ∧ t.pend.get .h = none ∧ t.trace.get .h = s.trace.get .h ++ [.response ⟨0x00000000#32, []⟩]
      ∧ (∀ q, q ≠ .h →
          if blocked q then t.pend.get q = none ∧ t.trace.get q = s.trace.get q ++ [.response ⟨0x80000000#32, []⟩]
          else t.pend.get q = s.pend.get q ∧ t.trace.get q = s.trace.get q)
      ∧ (if blocked .p || blocked .c then t.fault = true ∧ t.faultCode = (if s.fault then s.faultCode else 0x8#4)
         else t.fault = s.fault ∧ t.faultCode = s.faultCode)
      ∧ t.params = s.params ∧ t.inbox = s.inbox ∧ t.wdata = s.wdata ∧ t.turns = s.turns ∧ t.tick = s.tick

/-! ## Queries and observation -/

/-- CAPACITY, SIZE and AVAIL answer OK with their count on every port and change nothing; the answers sum as
`size + avail = capacity` (40_ringbuffer.md R402, R403, R404). -/
def Obligations.CountQueriesAnswer : Prop :=
  (TakesNoOperand 3 .capacity ∧ TakesNoOperand 4 .size ∧ TakesNoOperand 5 .avail)
    ∧ (NeverWaits .capacity ∧ NeverWaits .size ∧ NeverWaits .avail)
    ∧ (∀ s : State, s.constructed = true → s.size.toNat ≤ s.capacity.toNat →
        exec .capacity s = .next (answered s.served (replyWord 0 s.capacity.toNat) [] s)
          ∧ exec .size s = .next (answered s.served (replyWord 0 s.size.toNat) [] s)
          ∧ exec .avail s = .next (answered s.served (replyWord 0 (s.capacity.toNat - s.size.toNat)) [] s))
    ∧ NoBufferOnPorts .capacity [.p, .c, .h] ∧ NoBufferOnPorts .size [.p, .c, .h] ∧ NoBufferOnPorts .avail [.p, .c, .h]

/-- HEAD and TAIL answer OK with the offsets on every port and change nothing, and in a legal state
`TAIL = (HEAD + SIZE) mod CAPACITY` (42_status_debug.md R601, R602). -/
def Obligations.OffsetQueriesAnswer : Prop :=
  (TakesNoOperand 12 .head ∧ TakesNoOperand 13 .tail ∧ NeverWaits .head ∧ NeverWaits .tail)
    ∧ (∀ s : State, s.constructed = true →
        exec .head s = .next (answered s.served (replyWord 0 s.head.toNat) [] s)
          ∧ exec .tail s = .next (answered s.served (replyWord 0 s.tail.toNat) [] s)
          ∧ (Inv s → s.tail.toNat = (s.head.toNat + s.size.toNat) % s.capacity.toNat
              ∧ (s.size.toNat = 0 ∨ s.size = s.capacity → s.head = s.tail)))
    ∧ NoBufferOnPorts .head [.p, .c, .h] ∧ NoBufferOnPorts .tail [.p, .c, .h]

/-- 42_status_debug.md R600: STATUS answers its 24 bits on every port, with or without a buffer, and changes nothing. -/
def Obligations.StatusReportsEveryFlag : Prop :=
  (TakesNoOperand 11 .status ∧ NeverWaits .status)
    ∧ ∀ s : State,
        let bit (b : Bool) : Nat := if b then 1 else 0
        ∃ pw cw : Bool,
          (pw = true ↔ ∃ cmd len, s.pend.get .p = some cmd ∧ decode cmd.word = .ok (.produce len) ∧ s.constructed = true
            ∧ s.producerDone = false ∧ s.capacity.toNat - s.size.toNat < len.toNat)
          ∧ (cw = true ↔ ∃ cmd max, s.pend.get .c = some cmd ∧ decode cmd.word = .ok (.consume max) ∧ s.constructed = true
            ∧ s.producerDone = false ∧ s.size.toNat = 0)
          ∧ exec .status s = .next (answered s.served
              (replyWord 0 (bit s.constructed + 2 * bit s.producerDone + 4 * bit s.consumerExited
                + 8 * bit (s.constructed && s.size.toNat == 0) + 16 * bit (s.constructed && s.size == s.capacity)
                + 32 * bit s.fault + 256 * s.faultCode.toNat + 4096 * bit pw + 8192 * bit cw)) [] s)
          ∧ (s.served = .p → s.pend.get .p = some ⟨0xB0000000#32, []⟩ → pw = false)
          ∧ (s.served = .c → s.pend.get .c = some ⟨0xB0000000#32, []⟩ → cw = false)

/-! ## WRITE and READ -/

/-- 40_ringbuffer.md R406: WRITE of 0 bytes answers OK 0 and changes nothing, even when full; to a full buffer it answers
OUT_OF_SPACE with SENTINEL and changes nothing; else it stores the first `min(len, AVAIL)` payload bytes from TAIL on, wrapping, advances
TAIL and SIZE by as many, answers their count and changes nothing else; EMPTY is then 0 and FULL is 1 exactly when all of AVAIL was
used. It never waits. Off P it is ILLEGAL_COMMAND, without a buffer NO_BUFFER. -/
def Obligations.WriteStoresWhatFits : Prop :=
  (∀ len : Count, decode (BitVec.ofNat 32 (0x60000000 + len.toNat)) = .ok (.write len)
      ∧ IllegalOffPorts (.write len) [.p] ∧ NoBufferOnPorts (.write len) [.p] ∧ NeverWaits (.write len))
    ∧ ∀ (s : State) (len : Count) (cmd : Command), Inv s → s.constructed = true → s.served = .p → s.pend.get .p = some cmd →
        decode cmd.word = .ok (.write len) →
          let avail := s.capacity.toNat - s.size.toNat
          (len.toNat = 0 → exec (.write len) s = .next (answered .p 0x00000000#32 [] s))
            ∧ (len.toNat ≠ 0 → avail = 0 →
                ∃ w, IsReply w 1 0xFFFFFF ∧ exec (.write len) s = .next (answered .p w [] s))
            ∧ (len.toNat ≠ 0 → avail ≠ 0 →
                let n := min len.toNat avail
                ∃ st, exec (.write len) s = .next (storedAndAnswered n s st) ∧ StoresAtTail n cmd.payload s st
                  ∧ emptyFlag (storedAndAnswered n s st) = false
                  ∧ (fullFlag (storedAndAnswered n s st) = true ↔ n = avail))

/-- 40_ringbuffer.md R407: READ of 0 bytes, or from an empty buffer, answers OK 0 with no data and changes nothing; else it delivers the
oldest `min(len, SIZE)` bytes, advances HEAD and lowers SIZE by as many, and changes nothing else; FULL is then 0 and EMPTY is 1 exactly
when all were taken. It never waits and never ends the session. Off C it is ILLEGAL_COMMAND, without a buffer NO_BUFFER. -/
def Obligations.ReadDeliversTheOldestBytes : Prop :=
  (∀ len : Count, decode (BitVec.ofNat 32 (0x70000000 + len.toNat)) = .ok (.read len)
      ∧ IllegalOffPorts (.read len) [.c] ∧ NoBufferOnPorts (.read len) [.c] ∧ NeverWaits (.read len))
    ∧ ∀ (s : State) (len : Count), Inv s → s.constructed = true → s.served = .c →
        (len.toNat = 0 ∨ s.size.toNat = 0 → exec (.read len) s = .next (answered .c 0x00000000#32 [] s))
          ∧ (len.toNat ≠ 0 → s.size.toNat ≠ 0 →
              let n := min len.toNat s.size.toNat
              exec (.read len) s = .next (deliveredAndAnswered n s)
                ∧ fullFlag (deliveredAndAnswered n s) = false
                ∧ (emptyFlag (deliveredAndAnswered n s) = true ↔ n = s.size.toNat))

/-! ## PRODUCE, CONSUME, SIGNAL_PRODUCER_DONE -/

/-- PRODUCE with room for the whole chunk stores all of it and answers its length, whether or not PRODUCER_DONE is set
(41_coordinator.md section 2). -/
def Obligations.ProduceStoresTheWholeChunk : Prop :=
  ∀ (s : State) (len : Count) (cmd : Command), Inv s → s.constructed = true → s.served = .p → s.pend.get .p = some cmd →
    decode cmd.word = .ok (.produce len) → len.toNat ≤ s.capacity.toNat - s.size.toNat →
      (len.toNat = 0 → exec (.produce len) s = .next (answered .p 0x00000000#32 [] s))
        ∧ (len.toNat ≠ 0 →
            ∃ st, exec (.produce len) s = .next (storedAndAnswered len.toNat s st)
              ∧ StoresAtTail len.toNat cmd.payload s st)

/-- PRODUCE without room waits while PRODUCER_DONE is 0: it stays pending and changes nothing (41_coordinator.md section 2). -/
def Obligations.ProduceWaitsForRoom : Prop :=
  ∀ (s : State) (len : Count), s.constructed = true → s.served = .p → s.producerDone = false →
    s.capacity.toNat - s.size.toNat < len.toNat → guardOf .p (.produce len) s = false ∧ exec (.produce len) s = .next s

/-- 41_coordinator.md R502: a PRODUCE completes without room only because PRODUCER_DONE is set; it then does what WRITE does under TRUNCATE
(OUT_OF_SPACE with SENTINEL when full, else AVAIL bytes stored and counted), and under DROP answers CHUNK_DROPPED and stores nothing;
neither is a fault and neither stores beyond the free space. -/
def Obligations.ProduceAtShutdownFollowsThePolicy : Prop :=
  ∀ (s : State) (len : Count) (cmd : Command), Inv s → s.constructed = true → s.served = .p → s.pend.get .p = some cmd →
    decode cmd.word = .ok (.produce len) →
      let avail := s.capacity.toNat - s.size.toNat
      avail < len.toNat →
        (s.producerDone = false → exec (.produce len) s = .next s)
          ∧ (s.producerDone = true → s.params.policy = .truncate → avail = 0 →
              ∃ w, IsReply w 1 0xFFFFFF ∧ exec (.produce len) s = .next (answered .p w [] s))
          ∧ (s.producerDone = true → s.params.policy = .truncate → avail ≠ 0 →
              ∃ st, exec (.produce len) s = .next (storedAndAnswered avail s st) ∧ StoresAtTail avail cmd.payload s st)
          ∧ (s.producerDone = true → s.params.policy = .drop →
              exec (.produce len) s = .next (answered .p 0x90000000#32 [] s))

/-- 41_coordinator.md section 3: CONSUME delivers the oldest `min(max, SIZE)` bytes where bytes are held (OK 0 with no data for `max = 0`), reports
END_OF_DATA with SENTINEL and sets CONSUMER_EXITED where none is held and PRODUCER_DONE is set, and else waits unchanged. Off C it is
ILLEGAL_COMMAND, without a buffer NO_BUFFER. -/
def Obligations.ConsumeDeliversEndsOrWaits : Prop :=
  (∀ max : Count, decode (BitVec.ofNat 32 (0x90000000 + max.toNat)) = .ok (.consume max)
      ∧ IllegalOffPorts (.consume max) [.c] ∧ NoBufferOnPorts (.consume max) [.c])
    ∧ ∀ (s : State) (max : Count), Inv s → s.constructed = true → s.served = .c →
        (s.size.toNat ≠ 0 → max.toNat = 0 → exec (.consume max) s = .next (answered .c 0x00000000#32 [] s))
          ∧ (s.size.toNat ≠ 0 → max.toNat ≠ 0 →
              exec (.consume max) s = .next (deliveredAndAnswered (min max.toNat s.size.toNat) s))
          ∧ (s.size.toNat = 0 → s.producerDone = true →
              (∃ w, IsReply w 2 0xFFFFFF ∧ exec (.consume max) s = .next (answered .c w [] { s with consumerExited := true }))
                ∧ session { s with consumerExited := true } = some .terminated)
          ∧ (s.size.toNat = 0 → s.producerDone = false →
              guardOf .c (.consume max) s = false ∧ exec (.consume max) s = .next s)

/-- 41_coordinator.md R504: SIGNAL_PRODUCER_DONE on P or H sets PRODUCER_DONE, answers OK 0 and changes nothing else, a second time
nothing at all; after it every pending command's guard is true. On C it is ILLEGAL_COMMAND, without a buffer NO_BUFFER. -/
def Obligations.SignalSetsProducerDoneAndWakesAll : Prop :=
  (TakesNoOperand 10 .signalProducerDone ∧ NeverWaits .signalProducerDone)
    ∧ IllegalOffPorts .signalProducerDone [.p, .h] ∧ NoBufferOnPorts .signalProducerDone [.p, .h]
    ∧ ∀ s : State, s.constructed = true → s.served ∈ [.p, .h] →
        exec .signalProducerDone s = .next (answered s.served 0x00000000#32 [] { s with producerDone := true })
          ∧ (∀ q, s.pend.get q ≠ none → completeEnabled q { s with producerDone := true } = true)
          ∧ (s.producerDone = true → { s with producerDone := true } = s)
          ∧ (session s = some .running → session { s with producerDone := true } = some .producerDone)

/-! ## Frames -/

/-- CAPACITY, SIZE, AVAIL, STATUS, HEAD and TAIL change only the served port's slot and observation, and the fault record where a
common check fails; every byte of STORAGE reads as before (20_memory.md section 2), an unspecified one by the model's choice,
notes/assumptions/1.md. -/
def Obligations.QueriesLeaveEverythingElse : Prop :=
  ∀ (i : Instr) (s t : State), i ∈ [.capacity, .size, .avail, .status, .head, .tail] → exec i s = .next t →
    t = { s with pend := t.pend, trace := t.trace, fault := t.fault, faultCode := t.faultCode }
      ∧ OtherPortsKept s.served s t ∧ BytesKept s t
      ∧ (s.constructed = true → t.fault = s.fault ∧ t.faultCode = s.faultCode)

/-- WRITE and PRODUCE change only the served port's slot and observation, TAIL, SIZE, the bytes stored, and the fault record where a
common check fails: every index but the `(TAIL + i) mod CAPACITY` of the bytes added reads as before (40_ringbuffer.md section 4,
41_coordinator.md section 2), an unspecified byte by the model's choice, notes/assumptions/1.md. -/
def Obligations.StoresLeaveEverythingElse : Prop :=
  ∀ (i : Instr) (len : Count) (s t : State), i ∈ [.write len, .produce len] → exec i s = .next t →
    t = { s with
          pend := t.pend, trace := t.trace, fault := t.fault, faultCode := t.faultCode, storage := t.storage,
          tail := t.tail, size := t.size }
      ∧ OtherPortsKept s.served s t
      ∧ (∀ a, (∀ k < t.size.toNat - s.size.toNat, a ≠ (s.tail.toNat + k) % s.capacity.toNat) → memRead t a = memRead s a)
      ∧ (s.constructed = true → s.served = .p → t.fault = s.fault ∧ t.faultCode = s.faultCode)

/-- READ and CONSUME change only the served port's slot and observation, HEAD, SIZE, for CONSUME also CONSUMER_EXITED, and the fault
record where a common check fails; every byte of STORAGE reads as before (40_ringbuffer.md section 5, 41_coordinator.md section 3).
That the bytes delivered, unspecified from then on, still read as last stored is the model's choice, notes/assumptions/1.md. -/
def Obligations.DeliveriesLeaveEverythingElse : Prop :=
  ∀ (i : Instr) (len : Count) (s t : State), i ∈ [.read len, .consume len] → exec i s = .next t →
    t = { s with
          pend := t.pend, trace := t.trace, fault := t.fault, faultCode := t.faultCode, head := t.head, size := t.size,
          consumerExited := t.consumerExited }
      ∧ OtherPortsKept s.served s t ∧ BytesKept s t
      ∧ (i = .read len → t.consumerExited = s.consumerExited)
      ∧ (s.constructed = true → s.served = .c → t.fault = s.fault ∧ t.faultCode = s.faultCode)

/-- CONSTRUCT and SIGNAL_PRODUCER_DONE change only the served port's slot and observation, the session fields (SIGNAL_PRODUCER_DONE only
PRODUCER_DONE), and the fault record where a check fails; every byte of STORAGE reads as before (40_ringbuffer.md section 1,
41_coordinator.md section 4), an unspecified one by the model's choice, notes/assumptions/1.md. -/
def Obligations.SessionControlLeavesEverythingElse : Prop :=
  (∀ (cap : Count) (s t : State), exec (.construct cap) s = .next t →
    t = { s with
          pend := t.pend, trace := t.trace, fault := t.fault, faultCode := t.faultCode, constructed := t.constructed,
          capacity := t.capacity, size := t.size, head := t.head, tail := t.tail, producerDone := t.producerDone,
          consumerExited := t.consumerExited }
      ∧ OtherPortsKept s.served s t ∧ BytesKept s t
      ∧ (s.constructed = false → s.served = .h → t.fault = s.fault ∧ t.faultCode = s.faultCode))
    ∧ ∀ s t : State, exec .signalProducerDone s = .next t →
        t = { s with
              pend := t.pend, trace := t.trace, fault := t.fault, faultCode := t.faultCode, producerDone := t.producerDone }
          ∧ OtherPortsKept s.served s t ∧ BytesKept s t
          ∧ (s.constructed = true → s.served ≠ .c → t.fault = s.fault ∧ t.faultCode = s.faultCode)

/-- DESTROY leaves the parameters, the agents' queues, the schedule, the third port's observation where it aborts nothing there, and every
slot that holds no PRODUCE or CONSUME but its own; where a common check fails it leaves the session and every byte of STORAGE too
(40_ringbuffer.md section 6), an unspecified one by the model's choice, notes/assumptions/1.md. -/
def Obligations.DestroyLeavesTheRest : Prop :=
  ∀ s t : State, exec .destroy s = .next t →
    t.params = s.params ∧ t.inbox = s.inbox ∧ t.wdata = s.wdata ∧ t.turns = s.turns ∧ t.tick = s.tick ∧ t.served = s.served
      ∧ (∀ q, q ≠ s.served → holdsBlocking (s.pend.get q) = false →
          t.pend.get q = s.pend.get q ∧ t.trace.get q = s.trace.get q)
      ∧ (s.fault = true → t.fault = true ∧ t.faultCode = s.faultCode)
      ∧ (s.served ≠ .h ∨ s.constructed = false →
          t = { s with pend := t.pend, trace := t.trace, fault := t.fault, faultCode := t.faultCode }
            ∧ OtherPortsKept s.served s t ∧ BytesKept s t)

/-! ## Invariants and rules of the whole machine -/

/-- The reset state is legal. -/
def Obligations.ResetIsLegal : Prop := Inv State.reset

/-- 40_ringbuffer.md section 7: every step, and every turn the schedule could have named instead, keeps the legal states: the
registers in their ranges, `TAIL = (HEAD + SIZE) mod CAPACITY`, the session flags in a listed combination, the fault record
consistent, the slots with their payloads, STORAGE canonical with every occupied byte specified. The canonical form of STORAGE is the
model's choice, notes/assumptions/1.md. -/
def Obligations.StepsKeepTheStateLegal : Prop :=
  (∀ s t : State, Inv s → step s = .next t → Inv t) ∧ ∀ (u : Turn) (s t : State), Inv s → act u s = .next t → Inv t

/-- From a legal state every step, and every turn, answers a next state: RBUF has no trap and no stop (60_exceptions.md section 1). -/
def Obligations.LegalStatesNeverStop : Prop :=
  (∀ s : State, Inv s → ∃ t, step s = .next t) ∧ ∀ (u : Turn) (s : State), Inv s → ∃ t, act u s = .next t

/-- STORAGE keeps its canonical form in every turn from every state in which it has it. That STORAGE is a list of its stored bytes in
strictly rising order of index is the model's choice, notes/assumptions/1.md: the spec has an array of bytes (10_state.md section 2)
and no such form. -/
def Obligations.StorageStaysCanonical : Prop :=
  ∀ (u : Turn) (s t : State), Memory.wf s.storage → act u s = .next t → Memory.wf t.storage

/-- `size() + avail() == capacity()` holds after every turn from a legal state (40_ringbuffer.md section 7). -/
def Obligations.SizePlusAvailIsCapacity : Prop :=
  ∀ (u : Turn) (s t : State), Inv s → act u s = .next t → t.size.toNat + avail t = t.capacity.toNat

/-- 10_state.md R102: CAPACITY changes only by a CONSTRUCT that succeeds (to the capacity asked for), by DESTROY (to 0) and by reset (to
0), so never while a session lasts. -/
def Obligations.CapacityIsFixedInASession : Prop :=
  ∀ (u : Turn) (s t : State), act u s = .next t → t.capacity ≠ s.capacity →
    (s.constructed = false ∧ t.constructed = true ∧ ∃ cap, Completing u .h (.construct cap) s ∧ t.capacity = cap)
      ∨ (t.constructed = false ∧ t.capacity = 0#24 ∧ (Completing u .h .destroy s ∨ u = .reset))

/-- HEAD moves only by READ and CONSUME, TAIL and the bytes of STORAGE only by WRITE and PRODUCE, apart from CONSTRUCT, DESTROY and reset,
which CONSTRUCT does not extend to the bytes (10_state.md section 2). That an unspecified byte reads the same until one of these is
the model's choice, notes/assumptions/1.md. -/
def Obligations.EachPointerHasItsOwnWriters : Prop :=
  ∀ (u : Turn) (s t : State), act u s = .next t →
    (t.head ≠ s.head →
      (∃ len, Completing u .c (.read len) s ∨ Completing u .c (.consume len) s)
        ∨ (∃ cap, Completing u .h (.construct cap) s) ∨ Completing u .h .destroy s ∨ u = .reset)
      ∧ (t.tail ≠ s.tail →
          (∃ len, Completing u .p (.write len) s ∨ Completing u .p (.produce len) s)
            ∨ (∃ cap, Completing u .h (.construct cap) s) ∨ Completing u .h .destroy s ∨ u = .reset)
      ∧ (¬BytesKept s t →
          (∃ len, Completing u .p (.write len) s ∨ Completing u .p (.produce len) s)
            ∨ Completing u .h .destroy s ∨ u = .reset)

/-- PRODUCER_DONE is set only by SIGNAL_PRODUCER_DONE and CONSUMER_EXITED only by a CONSUME that answers END_OF_DATA; both are cleared
only by CONSTRUCT, DESTROY and reset (10_state.md section 3). -/
def Obligations.SessionFlagsHaveOneSource : Prop :=
  ∀ (u : Turn) (s t : State), act u s = .next t →
    (s.producerDone = false → t.producerDone = true →
      Completing u .p .signalProducerDone s ∨ Completing u .h .signalProducerDone s)
      ∧ (s.consumerExited = false → t.consumerExited = true →
          ∃ max, Completing u .c (.consume max) s
            ∧ EndsOfData s t)
      ∧ ((s.producerDone = true ∧ t.producerDone = false) ∨ (s.consumerExited = true ∧ t.consumerExited = false) →
          (∃ cap, Completing u .h (.construct cap) s) ∨ Completing u .h .destroy s ∨ u = .reset)

/-- 41_coordinator.md R500: from a legal state the session state is one of the four, it changes only as the table of transitions says,
and each event of the table has the transition it names. -/
def Obligations.SessionChangesExactlyAsTheTable : Prop :=
  ∀ (u : Turn) (s t : State), Inv s → act u s = .next t →
    let constructOk (cap : Count) : Prop := Completing u .h (.construct cap) s
      ∧ ∃ w, IsReply w 0 cap.toNat ∧ t.trace.get .h = s.trace.get .h ++ [.response ⟨w, []⟩]
    let signal : Prop := Completing u .p .signalProducerDone s ∨ Completing u .h .signalProducerDone s
    let endOfData : Prop := ∃ max, Completing u .c (.consume max) s ∧ EndsOfData s t
    ∃ a b, session s = some a ∧ session t = some b
      ∧ (a = b
        ∨ (a = .unconstructed ∧ b = .running ∧ ∃ cap, constructOk cap)
        ∨ (a = .running ∧ b = .producerDone ∧ signal)
        ∨ (a = .producerDone ∧ b = .terminated ∧ endOfData)
        ∨ (a ≠ .unconstructed ∧ b = .unconstructed ∧ (Completing u .h .destroy s ∨ u = .reset)))
      ∧ (∀ cap, constructOk cap → a = .unconstructed ∧ b = .running)
      ∧ (signal → a = .running → b = .producerDone)
      ∧ (signal → a = .producerDone ∨ a = .terminated → b = a)
      ∧ (endOfData → a = .producerDone ∨ a = .terminated → b = .terminated)
      ∧ ((∃ max, Completing u .c (.consume max) s) → a = .terminated → b = .terminated)
      ∧ (Completing u .h .destroy s ∨ u = .reset → b = .unconstructed)

/-- 10_state.md R114 with the sticky bit of its section 4: in every turn but a reset FAULT becomes or stays 1 exactly if it was 1 or a
response with a fault code is sent; the first such code is recorded, a later one changes nothing, and no fault leaves the code
as it is; reset clears both. -/
def Obligations.FirstFaultIsRecordedAndKept : Prop :=
  ∀ (u : Turn) (s t : State), act u s = .next t →
    let sent (code : Code) : Prop :=
      ∃ q r, Event.response r ∈ newEvents q s t ∧ stField r.word = code ∧ code ∈ [0x5#4, 0x6#4, 0x7#4, 0x8#4]
    (u = .reset → t.fault = false ∧ t.faultCode = 0#4)
      ∧ (u ≠ .reset →
          (t.fault = true ↔ s.fault = true ∨ ∃ code, sent code)
            ∧ (s.fault = true → t.faultCode = s.faultCode)
            ∧ (s.fault = false → t.fault = true → sent t.faultCode)
            ∧ (t.fault = false → t.faultCode = s.faultCode)
            ∧ (FaultLegal s → FaultLegal t))

/-- A port's turn touches no other port's slot or observation, but for a DESTROY that aborts a PRODUCE or CONSUME pending there
(60_exceptions.md sections 3 and 5). -/
def Obligations.OtherPortsAreTouchedOnlyByAborting : Prop :=
  ∀ (q r : Port) (s t : State), act (.port q) s = .next t → r ≠ q →
    (t.pend.get r = s.pend.get r ∧ t.trace.get r = s.trace.get r)
      ∨ (q = .h ∧ Completing (.port q) .h .destroy s ∧ holdsBlocking (s.pend.get r) = true ∧ t.pend.get r = none
          ∧ t.trace.get r = s.trace.get r ++ [.response ⟨0x80000000#32, []⟩])

/-- Every response ever sent has a listed status, zero bits 27:24, SENTINEL as the value of OUT_OF_SPACE and END_OF_DATA, 0 as
the value of every failure, and read data of exactly the length that its word announces, none if it answers an illegal word
(30_encoding.md sections 3 and 4). That bits 27:24 are zero beside SENTINEL too, against the worked words of 95_test_vectors.md, is the
model's reading, notes/assumptions/12.md. -/
def Obligations.EveryResponseHasALegalShape : Prop :=
  ∀ (u : Turn) (q : Port) (s t : State) (r : Response), act u s = .next t → Event.response r ∈ newEvents q s t →
    let st := r.word.toNat / 2 ^ 28
    let val := r.word.toNat % 2 ^ 24
    st ≤ 9 ∧ r.word.toNat / 2 ^ 24 % 16 = 0 ∧ (st = 1 ∨ st = 2 → val = 0xFFFFFF) ∧ (3 ≤ st → val = 0)
      ∧ ∃ cmd, s.pend.get q = some cmd
        ∧ (∀ i, decode cmd.word = .ok i → 4 + r.data.length = responseBytes i r.word)
        ∧ (∀ e, decode cmd.word = .error e → r.data = [] ∧ st = 7)

/-- The observation of a port only grows, and no step changes the parameters (20_memory.md section 6, 10_state.md section 1). -/
def Obligations.ObservationsOnlyGrow : Prop :=
  ∀ (u : Turn) (s t : State), act u s = .next t →
    t.params = s.params ∧ ∀ q, t.trace.get q = s.trace.get q ++ newEvents q s t

/-! ## Guards and progress -/

/-- 20_memory.md section 5 (guard stability): while a session is constructed, a guard that holds keeps holding through every other
port's turn, unless a DESTROY answers the command. -/
def Obligations.GuardsStayTrue : Prop :=
  ∀ (u : Turn) (q : Port) (s t : State), s.constructed = true → completeEnabled q s = true → u ≠ .port q → u ≠ .reset →
    act u s = .next t →
      (t.pend.get q = s.pend.get q ∧ completeEnabled q t = true) ∨ (t.pend.get q = none ∧ t.constructed = false)

/-- Along every weakly fair run, a command whose guard holds in a constructed session is answered, if no reset comes first
(20_memory.md sections 3 and 5). That a run's agents present finitely many
commands is the model's choice, notes/assumptions/13.md. -/
def Obligations.FairRunsAnswerEnabledCommands : Prop :=
  ∀ (turnAt : Nat → Turn) (stateAt : Nat → State) (q : Port), IsRun turnAt stateAt → WeaklyFair turnAt stateAt →
    (∀ n, turnAt n ≠ .reset) → (stateAt 0).constructed = true → completeEnabled q (stateAt 0) = true →
      ∃ n, (stateAt n).pend.get q = none

/-- A PRODUCE longer than the capacity, pending in a session whose producer is not done, stays pending with a false guard through
every turn but a SIGNAL_PRODUCER_DONE, a DESTROY or a reset (70_reset_and_hazards.md section 3). -/
def Obligations.OverlongProduceWaitsForShutdown : Prop :=
  ∀ (u : Turn) (s t : State) (cmd : Command) (len : Count), Inv s → s.constructed = true → s.producerDone = false →
    s.pend.get .p = some cmd → decode cmd.word = .ok (.produce len) → s.capacity.toNat < len.toNat → act u s = .next t →
      (t.pend.get .p = some cmd ∧ completeEnabled .p t = false ∧ t.capacity = s.capacity ∧ t.producerDone = false
          ∧ t.constructed = true)
        ∨ Completing u .h .signalProducerDone s ∨ Completing u .h .destroy s ∨ u = .reset

/-- A stuck block, in which something is pending and no port can accept or complete anything, stays as it is, whichever port's turn
comes: RBUF does not detect it (70_reset_and_hazards.md sections 3 and 4). That the agents issue only what their queues hold is the
model's choice, notes/assumptions/13.md. -/
def Obligations.StuckBlocksStayStuck : Prop :=
  ∀ (s : State) (ts : List Port), Stuck s →
    ∃ t, runTurns (ts.map Turn.port) s = some t ∧ t = { s with served := t.served } ∧ Stuck t

/-! ## The byte stream -/

/-- 20_memory.md section 4 (FIFO byte stream), one turn: from a legal state, while a session lasts, the bytes held and then the bytes stored by the turn are the
bytes delivered by it and then the bytes held after it. -/
def Obligations.EachTurnKeepsTheByteOrder : Prop :=
  ∀ (u : Turn) (s t : State), Inv s → act u s = .next t → t.constructed = true →
    contents s ++ storedBy s t = deliveredBy s t ++ contents t

/-- 20_memory.md section 4 (FIFO byte stream), a run: under every schedule, while a session lasts, what is delivered is a prefix of what was held and then
stored, in order, with the bytes still held as the rest: nothing lost, repeated or reordered. -/
def Obligations.DeliveredBytesArePrefixOfStoredBytes : Prop :=
  ∀ (ts : List Turn) (s t : State) (ins outs : List Byte), Inv s → streams ts s = some (ins, outs, t) →
    contents s ++ ins = outs ++ contents t

/-- 41_coordinator.md section 5 (graceful end): in a session that is not cut short, when a CONSUME answers END_OF_DATA every byte held or
stored before it has been delivered, in order. -/
def Obligations.EndOfDataComesAfterEveryByte : Prop :=
  ∀ (ts : List Turn) (s t t' : State) (ins outs : List Byte), Inv s → streams ts s = some (ins, outs, t) →
    act (.port .c) t = .next t' → EndsOfData t t' →
      outs = contents s ++ ins ∧ t.producerDone = true ∧ t'.consumerExited = true

/-- 10_state.md section 2: no operation can observe a byte outside the occupied region. Two legal states that differ only in STORAGE's
listed bytes and draw, and hold the same bytes, show the same observations under every schedule and stay equal but for those. -/
def Obligations.UnspecifiedBytesAreNeverObserved : Prop :=
  ∀ (ts : List Turn) (s s' t : State), Inv s → Inv s' → s' = { s with storage := s'.storage, draw := s'.draw } →
    contents s' = contents s → runTurns ts s = some t →
      ∃ t', runTurns ts s' = some t' ∧ t' = { t with storage := t'.storage, draw := t'.draw } ∧ contents t' = contents t
end

