-- ==== Sys2Proof/Laws/State.lean ====
section
/-! SUPPORT. One lemma per field per update of State: what `respondOn`, `respond`, `recordFault`, `raise`, `serve`, `advance`
and `resetPulse` leave and what they write. -/

namespace Sys2Proof.Machine

/-! ## Per-port values -/

@[simp] theorem PerPort_get_set_same {α : Type} (x : PerPort α) (q : Port) (v : α) : (x.set q v).get q = v := by
  cases q <;> rfl

@[simp] theorem PerPort_get_set_other {α : Type} (x : PerPort α) {q r : Port} (v : α) (h : r ≠ q) :
    (x.set q v).get r = x.get r := by
  cases q <;> cases r <;> first | rfl | exact absurd rfl h

theorem PerPort_get_set {α : Type} (x : PerPort α) (q r : Port) (v : α) :
    (x.set q v).get r = if r = q then v else x.get r := by
  cases q <;> cases r <;> rfl

@[simp] theorem PerPort_get_const {α : Type} (v : α) (q : Port) : (PerPort.mk v v v).get q = v := by
  cases q <;> rfl

theorem PerPort_ext_get {α : Type} {x y : PerPort α} (h : ∀ q, x.get q = y.get q) : x = y := by
  obtain ⟨_, _, _⟩ := x
  obtain ⟨_, _, _⟩ := y
  exact PerPort.mk.injEq .. |>.mpr ⟨h .p, h .c, h .h⟩


/-! ## respondOn -/

@[simp] theorem respondOn_constructed (q : Port) (st : Status) (val : Count) (data : List Byte) (s : State) : (respondOn q st val data s).constructed = s.constructed := rfl
@[simp] theorem respondOn_capacity (q : Port) (st : Status) (val : Count) (data : List Byte) (s : State) : (respondOn q st val data s).capacity = s.capacity := rfl
@[simp] theorem respondOn_size (q : Port) (st : Status) (val : Count) (data : List Byte) (s : State) : (respondOn q st val data s).size = s.size := rfl
@[simp] theorem respondOn_head (q : Port) (st : Status) (val : Count) (data : List Byte) (s : State) : (respondOn q st val data s).head = s.head := rfl
@[simp] theorem respondOn_tail (q : Port) (st : Status) (val : Count) (data : List Byte) (s : State) : (respondOn q st val data s).tail = s.tail := rfl
@[simp] theorem respondOn_storage (q : Port) (st : Status) (val : Count) (data : List Byte) (s : State) : (respondOn q st val data s).storage = s.storage := rfl
@[simp] theorem respondOn_producerDone (q : Port) (st : Status) (val : Count) (data : List Byte) (s : State) : (respondOn q st val data s).producerDone = s.producerDone := rfl
@[simp] theorem respondOn_consumerExited (q : Port) (st : Status) (val : Count) (data : List Byte) (s : State) : (respondOn q st val data s).consumerExited = s.consumerExited := rfl
@[simp] theorem respondOn_fault (q : Port) (st : Status) (val : Count) (data : List Byte) (s : State) : (respondOn q st val data s).fault = s.fault := rfl
@[simp] theorem respondOn_faultCode (q : Port) (st : Status) (val : Count) (data : List Byte) (s : State) : (respondOn q st val data s).faultCode = s.faultCode := rfl
@[simp] theorem respondOn_params (q : Port) (st : Status) (val : Count) (data : List Byte) (s : State) : (respondOn q st val data s).params = s.params := rfl
@[simp] theorem respondOn_inbox (q : Port) (st : Status) (val : Count) (data : List Byte) (s : State) : (respondOn q st val data s).inbox = s.inbox := rfl
@[simp] theorem respondOn_wdata (q : Port) (st : Status) (val : Count) (data : List Byte) (s : State) : (respondOn q st val data s).wdata = s.wdata := rfl
@[simp] theorem respondOn_turns (q : Port) (st : Status) (val : Count) (data : List Byte) (s : State) : (respondOn q st val data s).turns = s.turns := rfl
@[simp] theorem respondOn_tick (q : Port) (st : Status) (val : Count) (data : List Byte) (s : State) : (respondOn q st val data s).tick = s.tick := rfl
@[simp] theorem respondOn_served (q : Port) (st : Status) (val : Count) (data : List Byte) (s : State) : (respondOn q st val data s).served = s.served := rfl
@[simp] theorem respondOn_draw (q : Port) (st : Status) (val : Count) (data : List Byte) (s : State) : (respondOn q st val data s).draw = s.draw := rfl
@[simp] theorem respondOn_pend (q : Port) (st : Status) (val : Count) (data : List Byte) (s : State) : (respondOn q st val data s).pend = s.pend.set q none := rfl
@[simp] theorem respondOn_trace (q : Port) (st : Status) (val : Count) (data : List Byte) (s : State) : (respondOn q st val data s).trace
    = s.trace.set q (s.trace.get q ++ [.response ⟨responseWord st val, data⟩]) := rfl

/-! ## respond -/

@[simp] theorem respond_constructed (st : Status) (val : Count) (data : List Byte) (s : State) : (respond st val data s).constructed = s.constructed := rfl
@[simp] theorem respond_capacity (st : Status) (val : Count) (data : List Byte) (s : State) : (respond st val data s).capacity = s.capacity := rfl
@[simp] theorem respond_size (st : Status) (val : Count) (data : List Byte) (s : State) : (respond st val data s).size = s.size := rfl
@[simp] theorem respond_head (st : Status) (val : Count) (data : List Byte) (s : State) : (respond st val data s).head = s.head := rfl
@[simp] theorem respond_tail (st : Status) (val : Count) (data : List Byte) (s : State) : (respond st val data s).tail = s.tail := rfl
@[simp] theorem respond_storage (st : Status) (val : Count) (data : List Byte) (s : State) : (respond st val data s).storage = s.storage := rfl
@[simp] theorem respond_producerDone (st : Status) (val : Count) (data : List Byte) (s : State) : (respond st val data s).producerDone = s.producerDone := rfl
@[simp] theorem respond_consumerExited (st : Status) (val : Count) (data : List Byte) (s : State) : (respond st val data s).consumerExited = s.consumerExited := rfl
@[simp] theorem respond_fault (st : Status) (val : Count) (data : List Byte) (s : State) : (respond st val data s).fault = s.fault := rfl
@[simp] theorem respond_faultCode (st : Status) (val : Count) (data : List Byte) (s : State) : (respond st val data s).faultCode = s.faultCode := rfl
@[simp] theorem respond_params (st : Status) (val : Count) (data : List Byte) (s : State) : (respond st val data s).params = s.params := rfl
@[simp] theorem respond_inbox (st : Status) (val : Count) (data : List Byte) (s : State) : (respond st val data s).inbox = s.inbox := rfl
@[simp] theorem respond_wdata (st : Status) (val : Count) (data : List Byte) (s : State) : (respond st val data s).wdata = s.wdata := rfl
@[simp] theorem respond_turns (st : Status) (val : Count) (data : List Byte) (s : State) : (respond st val data s).turns = s.turns := rfl
@[simp] theorem respond_tick (st : Status) (val : Count) (data : List Byte) (s : State) : (respond st val data s).tick = s.tick := rfl
@[simp] theorem respond_served (st : Status) (val : Count) (data : List Byte) (s : State) : (respond st val data s).served = s.served := rfl
@[simp] theorem respond_draw (st : Status) (val : Count) (data : List Byte) (s : State) : (respond st val data s).draw = s.draw := rfl
@[simp] theorem respond_pend (st : Status) (val : Count) (data : List Byte) (s : State) : (respond st val data s).pend = s.pend.set s.served none := rfl
@[simp] theorem respond_trace (st : Status) (val : Count) (data : List Byte) (s : State) : (respond st val data s).trace
    = s.trace.set s.served (s.trace.get s.served ++ [.response ⟨responseWord st val, data⟩]) := rfl

/-! ## recordFault -/

@[simp] theorem recordFault_constructed (e : Status) (s : State) : (recordFault e s).constructed = s.constructed := by
  unfold recordFault; split <;> rfl
@[simp] theorem recordFault_capacity (e : Status) (s : State) : (recordFault e s).capacity = s.capacity := by
  unfold recordFault; split <;> rfl
@[simp] theorem recordFault_size (e : Status) (s : State) : (recordFault e s).size = s.size := by
  unfold recordFault; split <;> rfl
@[simp] theorem recordFault_head (e : Status) (s : State) : (recordFault e s).head = s.head := by
  unfold recordFault; split <;> rfl
@[simp] theorem recordFault_tail (e : Status) (s : State) : (recordFault e s).tail = s.tail := by
  unfold recordFault; split <;> rfl
@[simp] theorem recordFault_storage (e : Status) (s : State) : (recordFault e s).storage = s.storage := by
  unfold recordFault; split <;> rfl
@[simp] theorem recordFault_producerDone (e : Status) (s : State) : (recordFault e s).producerDone = s.producerDone := by
  unfold recordFault; split <;> rfl
@[simp] theorem recordFault_consumerExited (e : Status) (s : State) : (recordFault e s).consumerExited = s.consumerExited := by
  unfold recordFault; split <;> rfl
@[simp] theorem recordFault_pend (e : Status) (s : State) : (recordFault e s).pend = s.pend := by
  unfold recordFault; split <;> rfl
@[simp] theorem recordFault_params (e : Status) (s : State) : (recordFault e s).params = s.params := by
  unfold recordFault; split <;> rfl
@[simp] theorem recordFault_inbox (e : Status) (s : State) : (recordFault e s).inbox = s.inbox := by
  unfold recordFault; split <;> rfl
@[simp] theorem recordFault_wdata (e : Status) (s : State) : (recordFault e s).wdata = s.wdata := by
  unfold recordFault; split <;> rfl
@[simp] theorem recordFault_trace (e : Status) (s : State) : (recordFault e s).trace = s.trace := by
  unfold recordFault; split <;> rfl
@[simp] theorem recordFault_turns (e : Status) (s : State) : (recordFault e s).turns = s.turns := by
  unfold recordFault; split <;> rfl
@[simp] theorem recordFault_tick (e : Status) (s : State) : (recordFault e s).tick = s.tick := by
  unfold recordFault; split <;> rfl
@[simp] theorem recordFault_served (e : Status) (s : State) : (recordFault e s).served = s.served := by
  unfold recordFault; split <;> rfl
@[simp] theorem recordFault_draw (e : Status) (s : State) : (recordFault e s).draw = s.draw := by
  unfold recordFault; split <;> rfl
@[simp] theorem recordFault_fault (e : Status) (s : State) : (recordFault e s).fault = (isFault e || s.fault) := by
  unfold recordFault; cases h : isFault e <;> cases h' : s.fault <;> simp_all
@[simp] theorem recordFault_faultCode (e : Status) (s : State) : (recordFault e s).faultCode
    = if isFault e && !s.fault then statusCode e else s.faultCode := by
  unfold recordFault; split <;> rfl

/-! ## raise -/

@[simp] theorem raise_constructed (e : Status) (s : State) : (raise e s).constructed = s.constructed := by
  simp [raise]
@[simp] theorem raise_capacity (e : Status) (s : State) : (raise e s).capacity = s.capacity := by
  simp [raise]
@[simp] theorem raise_size (e : Status) (s : State) : (raise e s).size = s.size := by
  simp [raise]
@[simp] theorem raise_head (e : Status) (s : State) : (raise e s).head = s.head := by
  simp [raise]
@[simp] theorem raise_tail (e : Status) (s : State) : (raise e s).tail = s.tail := by
  simp [raise]
@[simp] theorem raise_storage (e : Status) (s : State) : (raise e s).storage = s.storage := by
  simp [raise]
@[simp] theorem raise_producerDone (e : Status) (s : State) : (raise e s).producerDone = s.producerDone := by
  simp [raise]
@[simp] theorem raise_consumerExited (e : Status) (s : State) : (raise e s).consumerExited = s.consumerExited := by
  simp [raise]
@[simp] theorem raise_params (e : Status) (s : State) : (raise e s).params = s.params := by
  simp [raise]
@[simp] theorem raise_inbox (e : Status) (s : State) : (raise e s).inbox = s.inbox := by
  simp [raise]
@[simp] theorem raise_wdata (e : Status) (s : State) : (raise e s).wdata = s.wdata := by
  simp [raise]
@[simp] theorem raise_turns (e : Status) (s : State) : (raise e s).turns = s.turns := by
  simp [raise]
@[simp] theorem raise_tick (e : Status) (s : State) : (raise e s).tick = s.tick := by
  simp [raise]
@[simp] theorem raise_served (e : Status) (s : State) : (raise e s).served = s.served := by
  simp [raise]
@[simp] theorem raise_draw (e : Status) (s : State) : (raise e s).draw = s.draw := by
  simp [raise]
@[simp] theorem raise_fault (e : Status) (s : State) : (raise e s).fault = (isFault e || s.fault) := by
  simp [raise]
@[simp] theorem raise_faultCode (e : Status) (s : State) : (raise e s).faultCode
    = if isFault e && !s.fault then statusCode e else s.faultCode := by
  simp [raise]
@[simp] theorem raise_pend (e : Status) (s : State) : (raise e s).pend = s.pend.set s.served none := by
  simp [raise]
@[simp] theorem raise_trace (e : Status) (s : State) : (raise e s).trace
    = s.trace.set s.served (s.trace.get s.served ++ [.response ⟨responseWord e 0#24, []⟩]) := by
  simp [raise]

/-! ## serve and advance -/

@[simp] theorem serve_constructed (q : Port) (s : State) : (serve q s).constructed = s.constructed := rfl
@[simp] theorem serve_capacity (q : Port) (s : State) : (serve q s).capacity = s.capacity := rfl
@[simp] theorem serve_size (q : Port) (s : State) : (serve q s).size = s.size := rfl
@[simp] theorem serve_head (q : Port) (s : State) : (serve q s).head = s.head := rfl
@[simp] theorem serve_tail (q : Port) (s : State) : (serve q s).tail = s.tail := rfl
@[simp] theorem serve_storage (q : Port) (s : State) : (serve q s).storage = s.storage := rfl
@[simp] theorem serve_producerDone (q : Port) (s : State) : (serve q s).producerDone = s.producerDone := rfl
@[simp] theorem serve_consumerExited (q : Port) (s : State) : (serve q s).consumerExited = s.consumerExited := rfl
@[simp] theorem serve_fault (q : Port) (s : State) : (serve q s).fault = s.fault := rfl
@[simp] theorem serve_faultCode (q : Port) (s : State) : (serve q s).faultCode = s.faultCode := rfl
@[simp] theorem serve_pend (q : Port) (s : State) : (serve q s).pend = s.pend := rfl
@[simp] theorem serve_params (q : Port) (s : State) : (serve q s).params = s.params := rfl
@[simp] theorem serve_inbox (q : Port) (s : State) : (serve q s).inbox = s.inbox := rfl
@[simp] theorem serve_wdata (q : Port) (s : State) : (serve q s).wdata = s.wdata := rfl
@[simp] theorem serve_trace (q : Port) (s : State) : (serve q s).trace = s.trace := rfl
@[simp] theorem serve_turns (q : Port) (s : State) : (serve q s).turns = s.turns := rfl
@[simp] theorem serve_tick (q : Port) (s : State) : (serve q s).tick = s.tick := rfl
@[simp] theorem serve_draw (q : Port) (s : State) : (serve q s).draw = s.draw := rfl
@[simp] theorem serve_served (q : Port) (s : State) : (serve q s).served = q := rfl
@[simp] theorem advance_constructed (s : State) : (advance s).constructed = s.constructed := rfl
@[simp] theorem advance_capacity (s : State) : (advance s).capacity = s.capacity := rfl
@[simp] theorem advance_size (s : State) : (advance s).size = s.size := rfl
@[simp] theorem advance_head (s : State) : (advance s).head = s.head := rfl
@[simp] theorem advance_tail (s : State) : (advance s).tail = s.tail := rfl
@[simp] theorem advance_storage (s : State) : (advance s).storage = s.storage := rfl
@[simp] theorem advance_producerDone (s : State) : (advance s).producerDone = s.producerDone := rfl
@[simp] theorem advance_consumerExited (s : State) : (advance s).consumerExited = s.consumerExited := rfl
@[simp] theorem advance_fault (s : State) : (advance s).fault = s.fault := rfl
@[simp] theorem advance_faultCode (s : State) : (advance s).faultCode = s.faultCode := rfl
@[simp] theorem advance_pend (s : State) : (advance s).pend = s.pend := rfl
@[simp] theorem advance_params (s : State) : (advance s).params = s.params := rfl
@[simp] theorem advance_inbox (s : State) : (advance s).inbox = s.inbox := rfl
@[simp] theorem advance_wdata (s : State) : (advance s).wdata = s.wdata := rfl
@[simp] theorem advance_trace (s : State) : (advance s).trace = s.trace := rfl
@[simp] theorem advance_served (s : State) : (advance s).served = s.served := rfl
@[simp] theorem advance_draw (s : State) : (advance s).draw = s.draw := rfl
@[simp] theorem advance_turns (s : State) : (advance s).turns = s.turns.tail := rfl
@[simp] theorem advance_tick (s : State) : (advance s).tick = s.tick + 1 := rfl

/-! ## resetPulse -/

@[simp] theorem resetPulse_params (s : State) : (resetPulse s).params = s.params := rfl
@[simp] theorem resetPulse_inbox (s : State) : (resetPulse s).inbox = s.inbox := rfl
@[simp] theorem resetPulse_wdata (s : State) : (resetPulse s).wdata = s.wdata := rfl
@[simp] theorem resetPulse_trace (s : State) : (resetPulse s).trace = s.trace := rfl
@[simp] theorem resetPulse_turns (s : State) : (resetPulse s).turns = s.turns := rfl
@[simp] theorem resetPulse_tick (s : State) : (resetPulse s).tick = s.tick := rfl
@[simp] theorem resetPulse_served (s : State) : (resetPulse s).served = s.served := rfl
@[simp] theorem resetPulse_constructed (s : State) : (resetPulse s).constructed = false := rfl
@[simp] theorem resetPulse_capacity (s : State) : (resetPulse s).capacity = 0#24 := rfl
@[simp] theorem resetPulse_size (s : State) : (resetPulse s).size = 0#24 := rfl
@[simp] theorem resetPulse_head (s : State) : (resetPulse s).head = 0#24 := rfl
@[simp] theorem resetPulse_tail (s : State) : (resetPulse s).tail = 0#24 := rfl
@[simp] theorem resetPulse_storage (s : State) : (resetPulse s).storage = [] := rfl
@[simp] theorem resetPulse_producerDone (s : State) : (resetPulse s).producerDone = false := rfl
@[simp] theorem resetPulse_consumerExited (s : State) : (resetPulse s).consumerExited = false := rfl
@[simp] theorem resetPulse_fault (s : State) : (resetPulse s).fault = false := rfl
@[simp] theorem resetPulse_faultCode (s : State) : (resetPulse s).faultCode = 0#4 := rfl
@[simp] theorem resetPulse_pend (s : State) : (resetPulse s).pend = ⟨none, none, none⟩ := rfl
@[simp] theorem resetPulse_draw (s : State) : (resetPulse s).draw = s.draw + 1 := rfl

/-! ## putBytes and takeBytes -/

@[simp] theorem putBytes_constructed (n : Nat) (s : State) : (putBytes n s).constructed = s.constructed := rfl
@[simp] theorem putBytes_capacity (n : Nat) (s : State) : (putBytes n s).capacity = s.capacity := rfl
@[simp] theorem putBytes_head (n : Nat) (s : State) : (putBytes n s).head = s.head := rfl
@[simp] theorem putBytes_producerDone (n : Nat) (s : State) : (putBytes n s).producerDone = s.producerDone := rfl
@[simp] theorem putBytes_consumerExited (n : Nat) (s : State) : (putBytes n s).consumerExited = s.consumerExited := rfl
@[simp] theorem putBytes_fault (n : Nat) (s : State) : (putBytes n s).fault = s.fault := rfl
@[simp] theorem putBytes_faultCode (n : Nat) (s : State) : (putBytes n s).faultCode = s.faultCode := rfl
@[simp] theorem putBytes_pend (n : Nat) (s : State) : (putBytes n s).pend = s.pend := rfl
@[simp] theorem putBytes_params (n : Nat) (s : State) : (putBytes n s).params = s.params := rfl
@[simp] theorem putBytes_inbox (n : Nat) (s : State) : (putBytes n s).inbox = s.inbox := rfl
@[simp] theorem putBytes_wdata (n : Nat) (s : State) : (putBytes n s).wdata = s.wdata := rfl
@[simp] theorem putBytes_trace (n : Nat) (s : State) : (putBytes n s).trace = s.trace := rfl
@[simp] theorem putBytes_turns (n : Nat) (s : State) : (putBytes n s).turns = s.turns := rfl
@[simp] theorem putBytes_tick (n : Nat) (s : State) : (putBytes n s).tick = s.tick := rfl
@[simp] theorem putBytes_served (n : Nat) (s : State) : (putBytes n s).served = s.served := rfl
@[simp] theorem putBytes_draw (n : Nat) (s : State) : (putBytes n s).draw = s.draw := rfl
@[simp] theorem putBytes_storage (n : Nat) (s : State) : (putBytes n s).storage
    = ringStore s.capacity.toNat s.tail.toNat ((servedPayload s).take n) s.storage := rfl
@[simp] theorem putBytes_tail (n : Nat) (s : State) : (putBytes n s).tail
    = BitVec.ofNat 24 (newOffset s.capacity.toNat s.tail.toNat n) := rfl
@[simp] theorem putBytes_size (n : Nat) (s : State) : (putBytes n s).size = BitVec.ofNat 24 (s.size.toNat + n) := rfl
@[simp] theorem takeBytes_constructed (n : Nat) (s : State) : (takeBytes n s).constructed = s.constructed := rfl
@[simp] theorem takeBytes_capacity (n : Nat) (s : State) : (takeBytes n s).capacity = s.capacity := rfl
@[simp] theorem takeBytes_tail (n : Nat) (s : State) : (takeBytes n s).tail = s.tail := rfl
@[simp] theorem takeBytes_storage (n : Nat) (s : State) : (takeBytes n s).storage = s.storage := rfl
@[simp] theorem takeBytes_producerDone (n : Nat) (s : State) : (takeBytes n s).producerDone = s.producerDone := rfl
@[simp] theorem takeBytes_consumerExited (n : Nat) (s : State) : (takeBytes n s).consumerExited = s.consumerExited := rfl
@[simp] theorem takeBytes_fault (n : Nat) (s : State) : (takeBytes n s).fault = s.fault := rfl
@[simp] theorem takeBytes_faultCode (n : Nat) (s : State) : (takeBytes n s).faultCode = s.faultCode := rfl
@[simp] theorem takeBytes_pend (n : Nat) (s : State) : (takeBytes n s).pend = s.pend := rfl
@[simp] theorem takeBytes_params (n : Nat) (s : State) : (takeBytes n s).params = s.params := rfl
@[simp] theorem takeBytes_inbox (n : Nat) (s : State) : (takeBytes n s).inbox = s.inbox := rfl
@[simp] theorem takeBytes_wdata (n : Nat) (s : State) : (takeBytes n s).wdata = s.wdata := rfl
@[simp] theorem takeBytes_trace (n : Nat) (s : State) : (takeBytes n s).trace = s.trace := rfl
@[simp] theorem takeBytes_turns (n : Nat) (s : State) : (takeBytes n s).turns = s.turns := rfl
@[simp] theorem takeBytes_tick (n : Nat) (s : State) : (takeBytes n s).tick = s.tick := rfl
@[simp] theorem takeBytes_served (n : Nat) (s : State) : (takeBytes n s).served = s.served := rfl
@[simp] theorem takeBytes_draw (n : Nat) (s : State) : (takeBytes n s).draw = s.draw := rfl
@[simp] theorem takeBytes_head (n : Nat) (s : State) : (takeBytes n s).head
    = BitVec.ofNat 24 (newOffset s.capacity.toNat s.head.toNat n) := rfl
@[simp] theorem takeBytes_size (n : Nat) (s : State) : (takeBytes n s).size = BitVec.ofNat 24 (s.size.toNat - n) := rfl

/-! ## openSession and closeSession -/

@[simp] theorem openSession_storage (cap : Count) (s : State) : (openSession cap s).storage = s.storage := rfl
@[simp] theorem openSession_fault (cap : Count) (s : State) : (openSession cap s).fault = s.fault := rfl
@[simp] theorem openSession_faultCode (cap : Count) (s : State) : (openSession cap s).faultCode = s.faultCode := rfl
@[simp] theorem openSession_pend (cap : Count) (s : State) : (openSession cap s).pend = s.pend := rfl
@[simp] theorem openSession_params (cap : Count) (s : State) : (openSession cap s).params = s.params := rfl
@[simp] theorem openSession_inbox (cap : Count) (s : State) : (openSession cap s).inbox = s.inbox := rfl
@[simp] theorem openSession_wdata (cap : Count) (s : State) : (openSession cap s).wdata = s.wdata := rfl
@[simp] theorem openSession_trace (cap : Count) (s : State) : (openSession cap s).trace = s.trace := rfl
@[simp] theorem openSession_turns (cap : Count) (s : State) : (openSession cap s).turns = s.turns := rfl
@[simp] theorem openSession_tick (cap : Count) (s : State) : (openSession cap s).tick = s.tick := rfl
@[simp] theorem openSession_served (cap : Count) (s : State) : (openSession cap s).served = s.served := rfl
@[simp] theorem openSession_draw (cap : Count) (s : State) : (openSession cap s).draw = s.draw := rfl
@[simp] theorem openSession_constructed (cap : Count) (s : State) : (openSession cap s).constructed = true := rfl
@[simp] theorem openSession_capacity (cap : Count) (s : State) : (openSession cap s).capacity = cap := rfl
@[simp] theorem openSession_size (cap : Count) (s : State) : (openSession cap s).size = 0#24 := rfl
@[simp] theorem openSession_head (cap : Count) (s : State) : (openSession cap s).head = 0#24 := rfl
@[simp] theorem openSession_tail (cap : Count) (s : State) : (openSession cap s).tail = 0#24 := rfl
@[simp] theorem openSession_producerDone (cap : Count) (s : State) : (openSession cap s).producerDone = false := rfl
@[simp] theorem openSession_consumerExited (cap : Count) (s : State) : (openSession cap s).consumerExited = false := rfl
@[simp] theorem closeSession_fault (s : State) : (closeSession s).fault = s.fault := rfl
@[simp] theorem closeSession_faultCode (s : State) : (closeSession s).faultCode = s.faultCode := rfl
@[simp] theorem closeSession_pend (s : State) : (closeSession s).pend = s.pend := rfl
@[simp] theorem closeSession_params (s : State) : (closeSession s).params = s.params := rfl
@[simp] theorem closeSession_inbox (s : State) : (closeSession s).inbox = s.inbox := rfl
@[simp] theorem closeSession_wdata (s : State) : (closeSession s).wdata = s.wdata := rfl
@[simp] theorem closeSession_trace (s : State) : (closeSession s).trace = s.trace := rfl
@[simp] theorem closeSession_turns (s : State) : (closeSession s).turns = s.turns := rfl
@[simp] theorem closeSession_tick (s : State) : (closeSession s).tick = s.tick := rfl
@[simp] theorem closeSession_served (s : State) : (closeSession s).served = s.served := rfl
@[simp] theorem closeSession_constructed (s : State) : (closeSession s).constructed = false := rfl
@[simp] theorem closeSession_capacity (s : State) : (closeSession s).capacity = 0#24 := rfl
@[simp] theorem closeSession_size (s : State) : (closeSession s).size = 0#24 := rfl
@[simp] theorem closeSession_head (s : State) : (closeSession s).head = 0#24 := rfl
@[simp] theorem closeSession_tail (s : State) : (closeSession s).tail = 0#24 := rfl
@[simp] theorem closeSession_producerDone (s : State) : (closeSession s).producerDone = false := rfl
@[simp] theorem closeSession_consumerExited (s : State) : (closeSession s).consumerExited = false := rfl
@[simp] theorem closeSession_storage (s : State) : (closeSession s).storage = [] := rfl
@[simp] theorem closeSession_draw (s : State) : (closeSession s).draw = s.draw + 1 := rfl

/-! ## abort -/

@[simp] theorem abort_constructed (q : Port) (s : State) : (abort q s).constructed = s.constructed := by
  unfold abort; split <;> simp
@[simp] theorem abort_capacity (q : Port) (s : State) : (abort q s).capacity = s.capacity := by
  unfold abort; split <;> simp
@[simp] theorem abort_size (q : Port) (s : State) : (abort q s).size = s.size := by
  unfold abort; split <;> simp
@[simp] theorem abort_head (q : Port) (s : State) : (abort q s).head = s.head := by
  unfold abort; split <;> simp
@[simp] theorem abort_tail (q : Port) (s : State) : (abort q s).tail = s.tail := by
  unfold abort; split <;> simp
@[simp] theorem abort_storage (q : Port) (s : State) : (abort q s).storage = s.storage := by
  unfold abort; split <;> simp
@[simp] theorem abort_producerDone (q : Port) (s : State) : (abort q s).producerDone = s.producerDone := by
  unfold abort; split <;> simp
@[simp] theorem abort_consumerExited (q : Port) (s : State) : (abort q s).consumerExited = s.consumerExited := by
  unfold abort; split <;> simp
@[simp] theorem abort_params (q : Port) (s : State) : (abort q s).params = s.params := by
  unfold abort; split <;> simp
@[simp] theorem abort_inbox (q : Port) (s : State) : (abort q s).inbox = s.inbox := by
  unfold abort; split <;> simp
@[simp] theorem abort_wdata (q : Port) (s : State) : (abort q s).wdata = s.wdata := by
  unfold abort; split <;> simp
@[simp] theorem abort_turns (q : Port) (s : State) : (abort q s).turns = s.turns := by
  unfold abort; split <;> simp
@[simp] theorem abort_tick (q : Port) (s : State) : (abort q s).tick = s.tick := by
  unfold abort; split <;> simp
@[simp] theorem abort_served (q : Port) (s : State) : (abort q s).served = s.served := by
  unfold abort; split <;> simp
@[simp] theorem abort_draw (q : Port) (s : State) : (abort q s).draw = s.draw := by
  unfold abort; split <;> simp
@[simp] theorem abort_fault (q : Port) (s : State) : (abort q s).fault = (holdsBlocking (s.pend.get q) || s.fault) := by
  unfold abort; split <;> simp_all [isFault]
@[simp] theorem abort_faultCode (q : Port) (s : State) : (abort q s).faultCode
    = if holdsBlocking (s.pend.get q) && !s.fault then 0x8#4 else s.faultCode := by
  unfold abort; split <;> simp_all [isFault, statusCode]
theorem abort_pend (q r : Port) (s : State) : (abort q s).pend.get r
    = if r = q ∧ holdsBlocking (s.pend.get q) = true then none else s.pend.get r := by
  unfold abort; split <;> simp_all [PerPort_get_set]
theorem abort_trace (q r : Port) (s : State) : (abort q s).trace.get r
    = if r = q ∧ holdsBlocking (s.pend.get q) = true then s.trace.get r ++ [.response ⟨0x80000000#32, []⟩]
      else s.trace.get r := by
  unfold abort
  split
  · next hb =>
    simp only [respondOn_trace, recordFault_trace, PerPort_get_set, hb, and_true]
    split
    · next hr => subst hr; rfl
    · rfl
  · next hb => rw [if_neg (fun h => hb h.2)]

end Sys2Proof.Machine
end

