-- ==== Sys2Proof/Laws/Codec.lean ====
section
/-! SUPPORT. The fields of command and response words (30_encoding.md R301, R307), as bits and as numbers. -/

namespace Sys2Proof.Machine

/-! ## Fields of a word `{4 bits, 0000, 24 bits}` -/

theorem word_hi (c : Code) (v : Count) : BitVec.extractLsb' 28 4 (c ++ 0#4 ++ v) = c := by
  apply BitVec.eq_of_getLsbD_eq
  intro i hi
  rw [BitVec.getLsbD_extractLsb', BitVec.getLsbD_append, BitVec.getLsbD_append]
  simp only [hi, decide_true, Bool.true_and]
  rw [if_neg (by omega), if_neg (by omega)]
  congr 1
  omega

theorem word_mid (c : Code) (v : Count) : BitVec.extractLsb' 24 4 (c ++ 0#4 ++ v) = 0#4 := by
  apply BitVec.eq_of_getLsbD_eq
  intro i hi
  rw [BitVec.getLsbD_extractLsb', BitVec.getLsbD_append, BitVec.getLsbD_append]
  simp only [hi, decide_true, Bool.true_and]
  rw [if_neg (by omega), if_pos (by omega)]
  simp

theorem word_lo (c : Code) (v : Count) : BitVec.extractLsb' 0 24 (c ++ 0#4 ++ v) = v := by
  apply BitVec.eq_of_getLsbD_eq
  intro i hi
  rw [BitVec.getLsbD_extractLsb', BitVec.getLsbD_append]
  simp [hi]

theorem word_toNat (c : Code) (v : Count) : (c ++ 0#4 ++ v).toNat = c.toNat * 2 ^ 28 + v.toNat := by
  rw [BitVec.toNat_append, BitVec.toNat_append, ← Nat.shiftLeft_add_eq_or_of_lt v.isLt]
  simp [Nat.shiftLeft_eq]
  omega

/-! ## Command words -/

@[simp] theorem opField_commandWord (op : Code) (n : Count) : opField (commandWord op n) = op := word_hi op n
@[simp] theorem rsvField_commandWord (op : Code) (n : Count) : rsvField (commandWord op n) = 0#4 := word_mid op n
@[simp] theorem opndField_commandWord (op : Code) (n : Count) : opndField (commandWord op n) = n := word_lo op n

theorem opField_toNat (w : Word) : (opField w).toNat = w.toNat / 2 ^ 28 := by
  have := w.isLt
  simp only [opField, BitVec.extractLsb'_toNat, Nat.shiftRight_eq_div_pow]
  omega

theorem rsvField_toNat (w : Word) : (rsvField w).toNat = w.toNat / 2 ^ 24 % 16 := by
  simp only [rsvField, BitVec.extractLsb'_toNat, Nat.shiftRight_eq_div_pow]

theorem opndField_toNat (w : Word) : (opndField w).toNat = w.toNat % 2 ^ 24 := by
  simp [opndField, BitVec.extractLsb'_toNat]

/-- A word whose reserved field is 0 is its other two fields put together. -/
theorem commandWord_of_fields {w : Word} (h : rsvField w = 0#4) : commandWord (opField w) (opndField w) = w := by
  apply BitVec.eq_of_toNat_eq
  have hr := congrArg BitVec.toNat h
  rw [rsvField_toNat] at hr
  have hw := w.isLt
  simp only [commandWord]
  rw [word_toNat, opField_toNat, opndField_toNat]
  simp only [BitVec.toNat_ofNat] at hr
  omega

/-- A command word by its numbers. -/
theorem ofNat_eq_commandWord {op : Nat} (n : Count) (h : op < 16) :
    BitVec.ofNat 32 (op * 2 ^ 28 + n.toNat) = commandWord (BitVec.ofNat 4 op) n := by
  apply BitVec.eq_of_toNat_eq
  have hn := n.isLt
  simp only [commandWord]
  rw [word_toNat, BitVec.toNat_ofNat, BitVec.toNat_ofNat, Nat.mod_eq_of_lt (by omega), Nat.mod_eq_of_lt (by omega)]

/-- The sixteen values of a 4-bit field. -/
theorem code_cases (c : Code) :
    c = 0x0#4 ∨ c = 0x1#4 ∨ c = 0x2#4 ∨ c = 0x3#4 ∨ c = 0x4#4 ∨ c = 0x5#4 ∨ c = 0x6#4 ∨ c = 0x7#4
      ∨ c = 0x8#4 ∨ c = 0x9#4 ∨ c = 0xA#4 ∨ c = 0xB#4 ∨ c = 0xC#4 ∨ c = 0xD#4 ∨ c = 0xE#4 ∨ c = 0xF#4 := by
  revert c
  decide

@[simp] theorem noOperand_zero (i : Instr) : noOperand i 0#24 = .ok i := rfl

theorem noOperand_of_ne {n : Count} (i : Instr) (h : n ≠ 0#24) : noOperand i n = .error .operandNotZero := if_neg h

theorem noOperand_eq_ok {i j : Instr} {n : Count} (h : noOperand i n = .ok j) : n = 0#24 ∧ j = i := by
  unfold noOperand at h
  split at h
  · next hn => exact ⟨hn, (Except.ok.inj h).symm⟩
  · cases h

theorem rsvField_of_decode {w : Word} {i : Instr} (h : decode w = .ok i) : rsvField w = 0#4 := by
  unfold decode at h
  split at h
  · cases h
  · split at h
    · cases h
    · next hr => simpa using hr

/-! ## Response words -/

@[simp] theorem stField_responseWord (st : Status) (v : Count) : stField (responseWord st v) = statusCode st :=
  word_hi (statusCode st) v

@[simp] theorem valField_responseWord (st : Status) (v : Count) : valField (responseWord st v) = v :=
  word_lo (statusCode st) v

theorem responseWord_toNat (st : Status) (v : Count) :
    (responseWord st v).toNat = (statusCode st).toNat * 2 ^ 28 + v.toNat := word_toNat (statusCode st) v

/-- A response word by its numbers. -/
theorem responseWord_eq_replyWord (st : Status) (v : Count) :
    responseWord st v = replyWord (statusCode st).toNat v.toNat := by
  apply BitVec.eq_of_toNat_eq
  have h1 := (statusCode st).isLt
  have h2 := v.isLt
  rw [responseWord_toNat, replyWord, BitVec.toNat_ofNat, Nat.mod_eq_of_lt (by omega)]

theorem statusCode_inj {a b : Status} (h : statusCode a = statusCode b) : a = b := by
  cases a <;> cases b <;> first | rfl | exact absurd h (by decide)

theorem responseWord_inj {a b : Status} {v w : Count} (h : responseWord a v = responseWord b w) : a = b ∧ v = w :=
  ⟨statusCode_inj (by rw [← stField_responseWord a v, h, stField_responseWord]),
    by rw [← valField_responseWord a v, h, valField_responseWord]⟩

theorem statusCode_ne_zero {st : Status} (h : st ≠ .ok) : statusCode st ≠ 0x0#4 := fun he => h (statusCode_inj he)

end Sys2Proof.Machine
end

