-- ==== Sys2Proof/Laws/Memory.lean ====
section
/-! SUPPORT. The laws of storage bytes: read after write, and that every write keeps the canonical form (20_memory.md R201). -/

namespace Sys2Proof.Machine

theorem Memory_lookup_write (a b : Nat) (v : Byte) (m : Memory) :
    Memory.lookup b (Memory.write a v m) = if b = a then some v else Memory.lookup b m := by
  induction m with
  | nil => simp [Memory.write, Memory.lookup]
  | cons x rest ih =>
    obtain ⟨k, w⟩ := x
    rw [Memory.write]
    split
    · simp [Memory.lookup]
    · split
      · next h => subst h; simp only [Memory.lookup]; split <;> rfl
      · next h =>
        simp only [Memory.lookup, ih]
        by_cases hb : b = k
        · subst hb; rw [if_pos rfl, if_neg (by omega), if_pos rfl]
        · rw [if_neg hb, if_neg hb]

@[simp] theorem Memory_lookup_write_same (a : Nat) (v : Byte) (m : Memory) :
    Memory.lookup a (Memory.write a v m) = some v := by
  rw [Memory_lookup_write, if_pos rfl]

theorem Memory_lookup_write_other {a b : Nat} (v : Byte) (m : Memory) (h : b ≠ a) :
    Memory.lookup b (Memory.write a v m) = Memory.lookup b m := by
  rw [Memory_lookup_write, if_neg h]

theorem Memory_mem_write {a : Nat} {v : Byte} {m : Memory} {x : Host.Cell} (h : x ∈ Memory.write a v m) :
    x.1 = a ∨ x ∈ m := by
  induction m with
  | nil => simp [Memory.write] at h; simp [h]
  | cons y rest ih =>
    obtain ⟨k, w⟩ := y
    rw [Memory.write] at h
    split at h
    · simp only [List.mem_cons] at h ⊢; rcases h with rfl | h <;> tauto
    · split at h
      · simp only [List.mem_cons] at h ⊢; rcases h with rfl | h <;> tauto
      · simp only [List.mem_cons] at h ⊢
        rcases h with h | h
        · tauto
        · rcases ih h with h | h <;> tauto

/-- A write keeps the canonical form. -/
theorem Memory_write_wf {m : Memory} (a : Nat) (v : Byte) (h : Memory.wf m) : Memory.wf (Memory.write a v m) := by
  induction m with
  | nil => simp [Memory.write]
  | cons y rest ih =>
    obtain ⟨k, w⟩ := y
    obtain ⟨hk, hr⟩ := List.pairwise_cons.mp h
    rw [Memory.write]
    split
    · next hlt =>
      refine List.pairwise_cons.mpr ⟨fun x hx => ?_, h⟩
      rcases List.mem_cons.mp hx with rfl | hx
      · exact hlt
      · exact Nat.lt_trans hlt (hk x hx)
    · split
      · next he => subst he; exact List.pairwise_cons.mpr ⟨hk, hr⟩
      · next hge hne =>
        refine List.pairwise_cons.mpr ⟨fun x hx => ?_, ih hr⟩
        rcases Memory_mem_write hx with hx | hx
        · show k < x.1; omega
        · exact hk x hx

/-! ## Runs of bytes -/

theorem Memory_lookup_writeRun (b : Nat) (bs : List Byte) (a : Nat) (m : Memory) :
    Memory.lookup b (writeRun a bs m) = if a ≤ b ∧ b < a + bs.length then bs[b - a]? else Memory.lookup b m := by
  induction bs generalizing a m with
  | nil => rw [writeRun, if_neg (by simp)]
  | cons v rest ih =>
    rw [writeRun, ih, Memory_lookup_write]
    simp only [List.length_cons]
    by_cases h1 : a + 1 ≤ b ∧ b < a + 1 + rest.length
    · rw [if_pos h1, if_pos (by omega), show b - a = (b - (a + 1)) + 1 by omega, List.getElem?_cons_succ]
    · rw [if_neg h1]
      by_cases h2 : b = a
      · subst h2; rw [if_pos rfl, if_pos (by omega)]; simp
      · rw [if_neg h2, if_neg (by omega)]

theorem Memory_writeRun_wf {m : Memory} (bs : List Byte) (a : Nat) (h : Memory.wf m) : Memory.wf (writeRun a bs m) := by
  induction bs generalizing a m with
  | nil => exact h
  | cons v rest ih => exact ih _ (Memory_write_wf a v h)

theorem Memory_mem_writeRun {bs : List Byte} {a : Nat} {m : Memory} {x : Host.Cell} (h : x ∈ writeRun a bs m) :
    (a ≤ x.1 ∧ x.1 < a + bs.length) ∨ x ∈ m := by
  induction bs generalizing a m with
  | nil => exact .inr h
  | cons v rest ih =>
    simp only [List.length_cons]
    rcases ih h with h | h
    · left; omega
    · rcases Memory_mem_write h with h | h
      · left; omega
      · exact .inr h

@[simp] theorem readRun_length (s : State) (a n : Nat) : (readRun s a n).length = n := by simp [readRun]

end Sys2Proof.Machine
end

