-- ==== Sys2Proof/Laws/Ring.lean ====
section
/-! SUPPORT. The laws of the wrap-around copy (40_ringbuffer.md R405): byte i of a transfer is at `(off + i) mod CAPACITY`, the new
offset is `(off + n) mod CAPACITY`, and nothing else is touched. -/

namespace Sys2Proof.Machine

/-- The index of byte i of a transfer, without `mod`. -/
theorem ring_index {cap off i : Nat} (hoff : off < cap) (hi : i < cap) :
    (off + i) % cap = if i < cap - off then off + i else i - (cap - off) := by
  split
  · exact Nat.mod_eq_of_lt (by omega)
  · rw [Nat.mod_eq_sub_mod (by omega), Nat.mod_eq_of_lt (by omega)]; omega

/-- The three cases of R405 are one remainder. -/
theorem newOffset_eq_mod {cap off n : Nat} (hoff : off < cap) (hn : n ≤ cap) :
    newOffset cap off n = (off + n) % cap := by
  unfold newOffset
  simp only
  split
  · split
    · rw [show off + n = cap by omega, Nat.mod_self]
    · exact (Nat.mod_eq_of_lt (by omega)).symm
  · rw [Nat.mod_eq_sub_mod (by omega), Nat.mod_eq_of_lt (by omega)]; omega

theorem newOffset_lt {cap off n : Nat} (hoff : off < cap) (hn : n ≤ cap) : newOffset cap off n < cap := by
  rw [newOffset_eq_mod hoff hn]; exact Nat.mod_lt _ (by omega)

/-- Two bytes of one transfer are at different indices. -/
theorem ring_index_inj {cap off i j : Nat} (hoff : off < cap) (hi : i < cap) (hj : j < cap)
    (h : (off + i) % cap = (off + j) % cap) : i = j := by
  rw [ring_index hoff hi, ring_index hoff hj] at h
  split at h <;> split at h <;> omega

/-- What `ring_store` leaves at every index: the bytes stored, else what was there. -/
theorem ringStore_lookup {cap off : Nat} {bytes : List Byte} (m : Memory) (hoff : off < cap) (hn : bytes.length ≤ cap)
    (b : Nat) :
    Memory.lookup b (ringStore cap off bytes m)
      = if off ≤ b ∧ b < off + bytes.length ∧ b < cap then bytes[b - off]?
        else if b + (cap - off) < bytes.length then bytes[b + (cap - off)]?
        else Memory.lookup b m := by
  unfold ringStore
  simp only
  split
  · next h =>
    rw [Memory_lookup_writeRun]
    by_cases h1 : off ≤ b ∧ b < off + bytes.length
    · rw [if_pos h1, if_pos (by omega)]
    · rw [if_neg h1, if_neg (by omega), if_neg (by omega)]
  · next h =>
    rw [Memory_lookup_writeRun, Memory_lookup_writeRun]
    simp only [List.length_drop, List.length_take, Nat.sub_zero, Nat.zero_add, Nat.zero_le, true_and,
      List.getElem?_drop]
    by_cases h1 : b < bytes.length - (cap - off)
    · rw [if_pos h1, if_neg (by omega), if_pos (by omega), Nat.add_comm]
    · rw [if_neg h1]
      by_cases h2 : off ≤ b ∧ b < off + bytes.length ∧ b < cap
      · rw [if_pos h2, if_pos (by omega), List.getElem?_take_of_lt (by omega)]
      · rw [if_neg h2, if_neg (by omega), if_neg (by omega)]

/-- Byte i of a transfer is stored at `(off + i) mod CAPACITY`. -/
theorem ringStore_lookup_stored {cap off i : Nat} {bytes : List Byte} (m : Memory) (hoff : off < cap)
    (hn : bytes.length ≤ cap) (hi : i < bytes.length) :
    Memory.lookup ((off + i) % cap) (ringStore cap off bytes m) = bytes[i]? := by
  rw [ringStore_lookup m hoff hn, ring_index hoff (by omega)]
  split
  · rw [if_pos (by omega)]; congr 1; omega
  · rw [if_neg (by omega), if_pos (by omega)]; congr 1; omega

/-- An index that no byte of the transfer goes to is left alone. -/
theorem ringStore_lookup_other {cap off b : Nat} {bytes : List Byte} (m : Memory) (hoff : off < cap)
    (hn : bytes.length ≤ cap) (hb : ∀ i < bytes.length, b ≠ (off + i) % cap) :
    Memory.lookup b (ringStore cap off bytes m) = Memory.lookup b m := by
  rw [ringStore_lookup m hoff hn]
  rw [if_neg, if_neg]
  · intro h
    refine hb (b + (cap - off)) h ?_
    rw [ring_index hoff (by omega), if_neg (by omega)]; omega
  · rintro ⟨h1, h2, h3⟩
    refine hb (b - off) (by omega) ?_
    rw [ring_index hoff (by omega), if_pos (by omega)]; omega

theorem ringStore_wf {cap off : Nat} {bytes : List Byte} {m : Memory} (h : Memory.wf m) :
    Memory.wf (ringStore cap off bytes m) := by
  unfold ringStore
  simp only
  split
  · exact Memory_writeRun_wf _ _ h
  · exact Memory_writeRun_wf _ _ (Memory_writeRun_wf _ _ h)

theorem mem_ringStore {cap off : Nat} {bytes : List Byte} {m : Memory} {x : Host.Cell} (hoff : off < cap)
    (hn : bytes.length ≤ cap) (h : x ∈ ringStore cap off bytes m) : x.1 < cap ∨ x ∈ m := by
  unfold ringStore at h
  simp only at h
  split at h
  · rcases Memory_mem_writeRun h with h | h
    · left; omega
    · exact .inr h
  · rcases Memory_mem_writeRun h with h | h
    · left; simp only [List.length_drop] at h; omega
    · rcases Memory_mem_writeRun h with h | h
      · left; simp only [List.length_take] at h; omega
      · exact .inr h

/-- What `ring_load` delivers: the bytes at `(off + i) mod CAPACITY`, in order. -/
theorem ringLoad_eq {cap off n : Nat} (s : State) (hoff : off < cap) (hn : n ≤ cap) :
    ringLoad cap off n s = (List.range n).map fun i => memRead s ((off + i) % cap) := by
  unfold ringLoad
  simp only
  split
  · refine List.map_congr_left fun i hi => ?_
    rw [List.mem_range] at hi
    rw [ring_index hoff (by omega), if_pos (by omega)]
  · next h =>
    rw [show n = (cap - off) + (n - (cap - off)) by omega, List.range_add, List.map_append,
      show (cap - off) + (n - (cap - off)) - (cap - off) = n - (cap - off) by omega]
    congr 1
    · refine List.map_congr_left fun i hi => ?_
      rw [List.mem_range] at hi
      rw [ring_index hoff (by omega), if_pos (by omega)]
    · rw [List.map_map]
      refine List.map_congr_left fun i hi => ?_
      rw [List.mem_range] at hi
      simp only [Function.comp]
      rw [ring_index hoff (by omega), if_neg (by omega)]
      congr 1; omega

@[simp] theorem ringLoad_length (cap off n : Nat) (s : State) : (ringLoad cap off n s).length = n := by
  unfold ringLoad
  simp only
  split
  · simp
  · simp; omega

end Sys2Proof.Machine
end

