-- ==== Sys2Proof/Laws/Ops.lean ====
section
/-! SUPPORT. What each shared operation can do, once: the common checks (60_exceptions.md R702), the transfers (40_ringbuffer.md
R406, R407), an operation (`Change`), accepting a command and a turn (20_memory.md R211). -/

namespace Sys2Proof.Machine

/-! ## Answers in the terms of the statements -/

theorem respondOn_eq_answered (q : Port) (st : Status) (val : Count) (data : List Byte) (s : State) :
    respondOn q st val data s = answered q (replyWord (statusCode st).toNat val.toNat) data s := by
  unfold respondOn answered
  rw [responseWord_eq_replyWord]

theorem respond_eq_answered (st : Status) (val : Count) (data : List Byte) (s : State) :
    respond st val data s = answered s.served (replyWord (statusCode st).toNat val.toNat) data s :=
  respondOn_eq_answered ..

theorem recordFault_eq_faulted {e : Status} (h : isFault e = true) (s : State) :
    recordFault e s = faulted (statusCode e).toNat s := by
  unfold recordFault faulted
  rw [h, BitVec.ofNat_toNat]
  cases hf : s.fault
  · rfl
  · rw [if_neg (by simp), if_pos rfl, ← hf]

theorem raise_eq_answered {e : Status} (h : isFault e = true) (s : State) :
    raise e s = answered s.served (replyWord (statusCode e).toNat 0) [] (faulted (statusCode e).toNat s) := by
  unfold raise
  rw [respond_eq_answered, recordFault_eq_faulted h]
  rfl

/-! ## Common checks -/

theorem commonCheck_eq_none {q : Port} {i : Instr} {s : State} :
    commonCheck q i s = none ↔ q ∈ portRights i ∧ (needsBuffer i = true → s.constructed = true) := by
  unfold commonCheck
  split
  · simp_all
  · split <;> simp_all

theorem commonCheck_eq_some {q : Port} {i : Instr} {s : State} {e : Status} (h : commonCheck q i s = some e) :
    (e = .illegalCommand ∧ q ∉ portRights i)
      ∨ (e = .noBuffer ∧ q ∈ portRights i ∧ needsBuffer i = true ∧ s.constructed = false) := by
  unfold commonCheck at h
  split at h
  · simp_all
  · split at h <;> simp_all

theorem isFault_of_commonCheck {q : Port} {i : Instr} {s : State} {e : Status} (h : commonCheck q i s = some e) :
    isFault e = true := by
  rcases commonCheck_eq_some h with ⟨rfl, -⟩ | ⟨rfl, -⟩ <;> rfl

theorem checked_eq_next {i : Instr} {s t : State} {body : State → Result} :
    checked i s body = .next t
      ↔ (∃ e, commonCheck s.served i s = some e ∧ t = raise e s) ∨ (commonCheck s.served i s = none ∧ body s = .next t) := by
  unfold checked
  cases h : commonCheck s.served i s with
  | none => simp
  | some e => simp [eq_comm]

/-- An operation that passes the common checks runs its own rule. -/
theorem checked_of_pass {i : Instr} {s : State} {body : State → Result} (hp : s.served ∈ portRights i)
    (hb : needsBuffer i = true → s.constructed = true) : checked i s body = body s := by
  unfold checked
  rw [commonCheck_eq_none.mpr ⟨hp, hb⟩]

/-- An operation that fails the common checks raises the first that fails. -/
theorem checked_of_fail {i : Instr} {s : State} {body : State → Result} {e : Status}
    (h : commonCheck s.served i s = some e) : checked i s body = .next (raise e s) := by
  unfold checked
  rw [h]

/-! ## Transfers -/

theorem ringRequires_iff {s : State} {off n : Nat} :
    ringRequires s off n = true
      ↔ 1 ≤ n ∧ n ≤ s.capacity.toNat ∧ off < s.capacity.toNat ∧ s.capacity.toNat ≤ s.params.memBytes := by
  simp [ringRequires]

/-- When a store can be made (R405). -/
def CanPut (n : Nat) (s : State) : Prop :=
  ringRequires s s.tail.toNat n = true ∧ n ≤ (servedPayload s).length

theorem storeServed_eq_next {n : Nat} {s t : State} :
    storeServed n s = .next t ↔ CanPut n s ∧ t = respond .ok (BitVec.ofNat 24 n) [] (putBytes n s) := by
  unfold storeServed CanPut
  simp only [Bool.and_eq_true, decide_eq_true_eq]
  split
  · next h => exact ⟨fun he => ⟨h, (Host.Outcome.next.inj he).symm⟩, fun he => congrArg _ he.2.symm⟩
  · next h => exact ⟨fun he => (nomatch he), fun he => absurd he.1 h⟩

theorem deliverServed_eq_next {n : Nat} {s t : State} :
    deliverServed n s = .next t
      ↔ ringRequires s s.head.toNat n = true
        ∧ t = respond .ok (BitVec.ofNat 24 n) (ringLoad s.capacity.toNat s.head.toNat n s) (takeBytes n s) := by
  unfold deliverServed
  split
  · next h => exact ⟨fun he => ⟨h, (Host.Outcome.next.inj he).symm⟩, fun he => congrArg _ he.2.symm⟩
  · next h => exact ⟨fun he => (nomatch he), fun he => absurd he.1 h⟩

/-! ## Operations -/

/-- Every operation starts with the common checks (R400, R702). -/
theorem exec_checks_first (i : Instr) (s : State) : ∃ body, exec i s = checked i s body := by
  cases i with
  | construct _ => exact ⟨_, by rw [exec, execConstruct]⟩
  | destroy => exact ⟨_, by rw [exec, execDestroy]⟩
  | capacity => exact ⟨_, by rw [exec, execCapacity]⟩
  | size => exact ⟨_, by rw [exec, execSize]⟩
  | avail => exact ⟨_, by rw [exec, execAvail]⟩
  | write _ => exact ⟨_, by rw [exec, execWrite]⟩
  | read _ => exact ⟨_, by rw [exec, execRead]⟩
  | produce _ => exact ⟨_, by rw [exec, execProduce]⟩
  | consume _ => exact ⟨_, by rw [exec, execConsume]⟩
  | signalProducerDone => exact ⟨_, by rw [exec, execSignalProducerDone]⟩
  | status => exact ⟨_, by rw [exec, execStatus]⟩
  | head => exact ⟨_, by rw [exec, execHead]⟩
  | tail => exact ⟨_, by rw [exec, execTail]⟩

/-- The operations that answer OK with a count of bytes moved. -/
def movesBytes : Instr → Bool
  | .write _ | .read _ | .produce _ | .consume _ => true
  | .construct _ | .destroy | .capacity | .size | .avail | .signalProducerDone | .status | .head | .tail => false

/-- Everything an operation can do where it answers a next state. -/
inductive Change (s : State) : Instr → State → Prop where
  /-- A common check fails (R702). -/
  | failsCheck {i : Instr} {e : Status} (h : commonCheck s.served i s = some e) : Change s i (raise e s)
  /-- CONSTRUCT while a buffer exists (R401). -/
  | alreadyThere {cap : Count} (hp : s.served = .h) (hc : s.constructed = true) :
      Change s (.construct cap) (raise .alreadyConstructed s)
  /-- An answer that changes nothing else and carries no read data: a query, or an outcome that is no fault. -/
  | replies {i : Instr} {st : Status} {val : Count} (h : commonCheck s.served i s = none) (hf : isFault st = false)
      (he : st ≠ .endOfData) (hv : st = .ok → movesBytes i = true → val = 0#24)
      (hs : st ≠ .ok → val = if st = .outOfSpace then sentinel else 0#24) :
      Change s i (respond st val [] s)
  /-- CONSTRUCT succeeds (R401). -/
  | opens {cap : Count} (hp : s.served = .h) (hc : s.constructed = false) (h0 : cap ≠ 0#24)
      (hl : cap.toNat < s.params.capLimit) (hm : cap.toNat ≤ s.params.memBytes) :
      Change s (.construct cap) (respond .ok cap [] (openSession cap s))
  /-- DESTROY (R408). -/
  | closes (hp : s.served = .h) (hc : s.constructed = true) :
      Change s .destroy (respond .ok 0#24 [] (closeSession (abort .c (abort .p s))))
  /-- WRITE or PRODUCE stores n bytes (R406, R501, R502). -/
  | stores {i : Instr} {len : Count} {n : Nat} (hi : i = .write len ∨ i = .produce len) (hp : s.served = .p)
      (hc : s.constructed = true) (hn : n ≤ len.toNat) (ha : n ≤ avail s) (hr : CanPut n s) :
      Change s i (respond .ok (BitVec.ofNat 24 n) [] (putBytes n s))
  /-- READ or CONSUME delivers n bytes (R407, R503). -/
  | delivers {i : Instr} {len : Count} {n : Nat} (hi : i = .read len ∨ i = .consume len) (hp : s.served = .c)
      (hc : s.constructed = true) (hn : n ≤ len.toNat) (ha : n ≤ s.size.toNat)
      (hr : ringRequires s s.head.toNat n = true) :
      Change s i (respond .ok (BitVec.ofNat 24 n) (ringLoad s.capacity.toNat s.head.toNat n s) (takeBytes n s))
  /-- CONSUME reports end of data (R503). -/
  | finishes {max : Count} (hp : s.served = .c) (hc : s.constructed = true) (h0 : s.size = 0#24)
      (hd : s.producerDone = true) :
      Change s (.consume max) (respond .endOfData sentinel [] { s with consumerExited := true })
  /-- SIGNAL_PRODUCER_DONE (R504). -/
  | signals (hp : s.served = .p ∨ s.served = .h) (hc : s.constructed = true) :
      Change s .signalProducerDone (respond .ok 0#24 [] { s with producerDone := true })
  /-- A PRODUCE whose guard is false stays pending (R501). -/
  | produceWaits {len : Count} (hp : s.served = .p) (hc : s.constructed = true) (hd : s.producerDone = false)
      (ha : avail s < len.toNat) : Change s (.produce len) s
  /-- A CONSUME whose guard is false stays pending (R503). -/
  | consumeWaits {max : Count} (hp : s.served = .c) (hc : s.constructed = true) (hd : s.producerDone = false)
      (h0 : s.size = 0#24) : Change s (.consume max) s

theorem writeBody_change {i : Instr} {len : Count} {s t : State} (hi : i = .write len ∨ i = .produce len)
    (hk : commonCheck s.served i s = none) (h : writeBody len s = .next t) : Change s i t := by
  have hpc : s.served = .p ∧ s.constructed = true := by
    obtain ⟨hm, hb⟩ := commonCheck_eq_none.mp hk
    rcases hi with rfl | rfl <;> exact ⟨by simpa [portRights] using hm, hb rfl⟩
  unfold writeBody at h
  split at h
  · cases h; exact .replies hk rfl (by decide) (by simp) (by simp)
  · split at h
    · cases h; exact .replies hk rfl (by decide) (by simp) (by simp)
    · obtain ⟨hr, rfl⟩ := storeServed_eq_next.mp h
      exact .stores hi hpc.1 hpc.2 (Nat.min_le_left ..) (Nat.min_le_right ..) hr

theorem readBody_change {i : Instr} {len : Count} {s t : State} (hi : i = .read len ∨ i = .consume len)
    (hk : commonCheck s.served i s = none) (h : readBody len s = .next t) : Change s i t := by
  have hpc : s.served = .c ∧ s.constructed = true := by
    obtain ⟨hm, hb⟩ := commonCheck_eq_none.mp hk
    rcases hi with rfl | rfl <;> exact ⟨by simpa [portRights] using hm, hb rfl⟩
  unfold readBody at h
  split at h
  · cases h; exact .replies hk rfl (by decide) (by simp) (by simp)
  · obtain ⟨hr, rfl⟩ := deliverServed_eq_next.mp h
    exact .delivers hi hpc.1 hpc.2 (Nat.min_le_left ..) (Nat.min_le_right ..) hr

theorem execConstruct_change {cap : Count} {s t : State} (h : execConstruct cap s = .next t) : Change s (.construct cap) t := by
  unfold execConstruct at h
  rcases checked_eq_next.mp h with ⟨e, he, rfl⟩ | ⟨hk, h⟩
  · exact .failsCheck he
  have hp : s.served = .h := by simpa [portRights] using (commonCheck_eq_none.mp hk).1
  split at h
  · next hc => cases h; exact .alreadyThere hp hc
  · next hc =>
    split at h
    · cases h; exact .replies hk rfl (by decide) (fun _ h => nomatch h) (by simp)
    · next hcap =>
      split at h
      · cases h; exact .replies hk rfl (by decide) (fun _ h => nomatch h) (by simp)
      · next hmem =>
        cases h
        simp only [not_or, Nat.not_le] at hcap
        exact .opens hp (by simpa using hc) hcap.1 hcap.2 (by omega)

theorem execDestroy_change {s t : State} (h : execDestroy s = .next t) : Change s .destroy t := by
  unfold execDestroy at h
  rcases checked_eq_next.mp h with ⟨e, he, rfl⟩ | ⟨hk, h⟩
  · exact .failsCheck he
  obtain ⟨hp, hb⟩ := commonCheck_eq_none.mp hk
  cases h; exact .closes (by simpa [portRights] using hp) (hb rfl)

theorem execCapacity_change {s t : State} (h : execCapacity s = .next t) : Change s .capacity t := by
  unfold execCapacity at h
  rcases checked_eq_next.mp h with ⟨e, he, rfl⟩ | ⟨hk, h⟩
  · exact .failsCheck he
  cases h; exact .replies hk rfl (by decide) (fun _ h => nomatch h) (by simp)

theorem execSize_change {s t : State} (h : execSize s = .next t) : Change s .size t := by
  unfold execSize at h
  rcases checked_eq_next.mp h with ⟨e, he, rfl⟩ | ⟨hk, h⟩
  · exact .failsCheck he
  cases h; exact .replies hk rfl (by decide) (fun _ h => nomatch h) (by simp)

theorem execAvail_change {s t : State} (h : execAvail s = .next t) : Change s .avail t := by
  unfold execAvail at h
  rcases checked_eq_next.mp h with ⟨e, he, rfl⟩ | ⟨hk, h⟩
  · exact .failsCheck he
  cases h; exact .replies hk rfl (by decide) (fun _ h => nomatch h) (by simp)

theorem execWrite_change {len : Count} {s t : State} (h : execWrite len s = .next t) : Change s (.write len) t := by
  unfold execWrite at h
  rcases checked_eq_next.mp h with ⟨e, he, rfl⟩ | ⟨hk, h⟩
  · exact .failsCheck he
  exact writeBody_change (.inl rfl) hk h

theorem execRead_change {len : Count} {s t : State} (h : execRead len s = .next t) : Change s (.read len) t := by
  unfold execRead at h
  rcases checked_eq_next.mp h with ⟨e, he, rfl⟩ | ⟨hk, h⟩
  · exact .failsCheck he
  exact readBody_change (.inl rfl) hk h

theorem execProduce_change {len : Count} {s t : State} (h : execProduce len s = .next t) : Change s (.produce len) t := by
  unfold execProduce at h
  rcases checked_eq_next.mp h with ⟨e, he, rfl⟩ | ⟨hk, h⟩
  · exact .failsCheck he
  obtain ⟨hp, hb⟩ := commonCheck_eq_none.mp hk
  have hp : s.served = .p := by simpa [portRights] using hp
  split at h
  · next ha =>
    split at h
    · cases h; exact .replies hk rfl (by decide) (by simp) (by simp)
    · obtain ⟨hr, rfl⟩ := storeServed_eq_next.mp h
      exact .stores (.inr rfl) hp (hb rfl) (Nat.le_refl _) ha hr
  · next ha =>
    split at h
    · unfold shutdownComplete at h
      split at h
      · exact writeBody_change (.inr rfl) hk h
      · cases h; exact .replies hk rfl (by decide) (by simp) (by simp)
    · next hd => cases h; exact .produceWaits hp (hb rfl) (by simpa using hd) (by omega)

theorem execConsume_change {max : Count} {s t : State} (h : execConsume max s = .next t) : Change s (.consume max) t := by
  unfold execConsume at h
  rcases checked_eq_next.mp h with ⟨e, he, rfl⟩ | ⟨hk, h⟩
  · exact .failsCheck he
  obtain ⟨hp, hb⟩ := commonCheck_eq_none.mp hk
  have hp : s.served = .c := by simpa [portRights] using hp
  split at h
  · next h0 =>
    split at h
    · next hd => cases h; exact .finishes hp (hb rfl) h0 hd
    · next hd => cases h; exact .consumeWaits hp (hb rfl) (by simpa using hd) h0
  · exact readBody_change (.inr rfl) hk h

theorem execSignalProducerDone_change {s t : State} (h : execSignalProducerDone s = .next t) : Change s .signalProducerDone t := by
  unfold execSignalProducerDone at h
  rcases checked_eq_next.mp h with ⟨e, he, rfl⟩ | ⟨hk, h⟩
  · exact .failsCheck he
  obtain ⟨hp, hb⟩ := commonCheck_eq_none.mp hk
  cases h; exact .signals (by simpa [portRights] using hp) (hb rfl)

theorem execStatus_change {s t : State} (h : execStatus s = .next t) : Change s .status t := by
  unfold execStatus at h
  rcases checked_eq_next.mp h with ⟨e, he, rfl⟩ | ⟨hk, h⟩
  · exact .failsCheck he
  cases h; exact .replies hk rfl (by decide) (fun _ h => nomatch h) (by simp)

theorem execHead_change {s t : State} (h : execHead s = .next t) : Change s .head t := by
  unfold execHead at h
  rcases checked_eq_next.mp h with ⟨e, he, rfl⟩ | ⟨hk, h⟩
  · exact .failsCheck he
  cases h; exact .replies hk rfl (by decide) (fun _ h => nomatch h) (by simp)

theorem execTail_change {s t : State} (h : execTail s = .next t) : Change s .tail t := by
  unfold execTail at h
  rcases checked_eq_next.mp h with ⟨e, he, rfl⟩ | ⟨hk, h⟩
  · exact .failsCheck he
  cases h; exact .replies hk rfl (by decide) (fun _ h => nomatch h) (by simp)

/-- An operation answers a next state only in one of these ways. -/
theorem exec_change {i : Instr} {s t : State} (h : exec i s = .next t) : Change s i t := by
  cases i with
  | construct _ => exact execConstruct_change h
  | destroy => exact execDestroy_change h
  | capacity => exact execCapacity_change h
  | size => exact execSize_change h
  | avail => exact execAvail_change h
  | write _ => exact execWrite_change h
  | read _ => exact execRead_change h
  | produce _ => exact execProduce_change h
  | consume _ => exact execConsume_change h
  | signalProducerDone => exact execSignalProducerDone_change h
  | status => exact execStatus_change h
  | head => exact execHead_change h
  | tail => exact execTail_change h

/-! ## Accepting a command -/

/-- A command taken into a slot: what `accept` leaves where it is enabled (R211). -/
def accepted (q : Port) (w : Word) (rest : List Word) (s : State) : State :=
  { s with
    pend := s.pend.set q (some ⟨w, s.wdata.take (payloadLen q w)⟩)
    inbox := s.inbox.set q rest
    wdata := s.wdata.drop (payloadLen q w)
    trace := s.trace.set q (s.trace.get q ++ [.command ⟨w, s.wdata.take (payloadLen q w)⟩]) }

theorem accept_cases (q : Port) (s : State) :
    accept q s = s
      ∨ ∃ w rest, s.inbox.get q = w :: rest ∧ payloadLen q w ≤ s.wdata.length ∧ accept q s = accepted q w rest s := by
  unfold accept
  cases h : s.inbox.get q with
  | nil => exact .inl rfl
  | cons w rest =>
    simp only
    split
    · exact .inl rfl
    · exact .inr ⟨w, rest, rfl, by omega, rfl⟩

theorem accept_of_enabled {q : Port} {w : Word} {rest : List Word} {s : State} (hw : s.inbox.get q = w :: rest)
    (hl : payloadLen q w ≤ s.wdata.length) : accept q s = accepted q w rest s := by
  unfold accept
  rw [hw]
  exact if_neg (by omega)

theorem accept_of_short {q : Port} {w : Word} {rest : List Word} {s : State} (hw : s.inbox.get q = w :: rest)
    (hl : s.wdata.length < payloadLen q w) : accept q s = s := by
  unfold accept
  rw [hw]
  exact if_pos hl

/-- A port whose accept is not enabled, and whose slot is empty, accepts nothing in its turn (R211). -/
theorem accept_of_disabled {q : Port} {s : State} (hs : s.pend.get q = none) (h : acceptEnabled q s = false) :
    accept q s = s := by
  rcases accept_cases q s with he | ⟨w, rest, hw, hl, -⟩
  · exact he
  · unfold acceptEnabled cmdReady at h
    simp [hs, hw, hl] at h

theorem accept_of_nothing {q : Port} {s : State} (hw : s.inbox.get q = []) : accept q s = s := by
  unfold accept
  rw [hw]

/-! ## Turns -/

theorem act_reset (s : State) : act .reset s = .next (resetPulse s) := rfl

theorem act_of_empty {q : Port} {s : State} (h : s.pend.get q = none) :
    act (.port q) s = .next (accept q (serve q s)) := by
  simp only [act, h]

theorem act_of_illegal {q : Port} {s : State} {cmd : Command} {e : DecodeError} (h : s.pend.get q = some cmd)
    (hd : decode cmd.word = .error e) : act (.port q) s = .next (raise .illegalCommand (serve q s)) := by
  simp only [act, h, complete, hd]

theorem act_of_legal {q : Port} {s : State} {cmd : Command} {i : Instr} (h : s.pend.get q = some cmd)
    (hd : decode cmd.word = .ok i) : act (.port q) s = exec i (serve q s) := by
  simp only [act, h, complete, hd]

/-- Everything a turn can do where it answers a next state. -/
inductive TurnChange (s : State) : Turn → State → Prop where
  | resets : TurnChange s .reset (resetPulse s)
  /-- An empty slot, and nothing presented in full: nothing happens. -/
  | idles {q : Port} (hs : s.pend.get q = none) : TurnChange s (.port q) (serve q s)
  | accepts {q : Port} {w : Word} {rest : List Word} (hs : s.pend.get q = none) (hw : s.inbox.get q = w :: rest)
      (hl : payloadLen q w ≤ s.wdata.length) : TurnChange s (.port q) (accepted q w rest (serve q s))
  | illegal {q : Port} {cmd : Command} {e : DecodeError} (hs : s.pend.get q = some cmd) (hd : decode cmd.word = .error e) :
      TurnChange s (.port q) (raise .illegalCommand (serve q s))
  | runs {q : Port} {cmd : Command} {i : Instr} {t : State} (hs : s.pend.get q = some cmd) (hd : decode cmd.word = .ok i)
      (hc : Change (serve q s) i t) : TurnChange s (.port q) t

/-- A turn answers a next state only in one of these ways. -/
theorem act_change {u : Turn} {s t : State} (h : act u s = .next t) : TurnChange s u t := by
  unfold act at h
  split at h
  · cases h; exact .resets
  · next q =>
    split at h
    · next hs =>
      cases h
      rcases accept_cases q (serve q s) with h | ⟨w, rest, hw, hl, h⟩ <;> rw [h]
      · exact .idles hs
      · exact .accepts hs hw hl
    · next cmd hs =>
      unfold complete at h
      split at h
      · next hd => cases h; exact .illegal hs hd
      · next hd => exact .runs hs hd (exec_change h)

end Sys2Proof.Machine
end

