-- ==== Sys2Proof/Laws/Invariant.lean ====
section
/-! SUPPORT. What each shared operation keeps of the invariant (40_ringbuffer.md R409), and where the transfers answer a next state. -/

namespace Sys2Proof.Machine

theorem toNat_ofNat24 {n : Nat} (h : n < 16777216) : (BitVec.ofNat 24 n).toNat = n := by
  rw [BitVec.toNat_ofNat]; exact Nat.mod_eq_of_lt (by simpa using h)

theorem Inv_pendSet {s : State} {x : PerPort (Option Command)} {tr : PerPort (List Event)} (h : Inv s)
    (hx : ∀ q, SlotLegal q (x.get q)) : Inv { s with pend := x, trace := tr } :=
  ⟨h.params, h.idle, h.ring, h.exited, h.fault, hx, h.storage⟩

theorem slots_set_none {s : State} (h : ∀ q, SlotLegal q (s.pend.get q)) (q : Port) :
    ∀ r, SlotLegal r ((s.pend.set q none).get r) := by
  intro r
  rw [PerPort_get_set]
  split
  · intro c hc; cases hc
  · exact h r

theorem Inv_respondOn {s : State} (h : Inv s) (q : Port) (st : Status) (v : Count) (d : List Byte) :
    Inv (respondOn q st v d s) := Inv_pendSet h (slots_set_none h.slots q)

theorem Inv_recordFault {s : State} (h : Inv s) (e : Status) : Inv (recordFault e s) := by
  unfold recordFault
  split
  · next hf =>
    refine ⟨h.params, h.idle, h.ring, h.exited, ?_, h.slots, h.storage⟩
    cases e <;> simp [isFault] at hf <;> simp [FaultLegal, statusCode]
  · exact h

theorem Inv_raise {s : State} (h : Inv s) (e : Status) : Inv (raise e s) := Inv_respondOn (Inv_recordFault h e) ..

theorem Inv_abort {s : State} (h : Inv s) (q : Port) : Inv (abort q s) := by
  unfold abort
  split
  · exact Inv_respondOn (Inv_recordFault h _) ..
  · exact h

theorem Inv_openSession {s : State} (h : Inv s) (hc : s.constructed = false) {cap : Count} (h0 : cap ≠ 0#24)
    (hl : cap.toNat < s.params.capLimit) (hm : cap.toNat ≤ s.params.memBytes) : Inv (openSession cap s) := by
  have h0' : 1 ≤ cap.toNat := by
    rcases Nat.eq_zero_or_pos cap.toNat with h | h
    · exact absurd (BitVec.eq_of_toNat_eq (by simpa using h)) h0
    · exact h
  obtain ⟨hcap, hsz, -, -, -, -⟩ := h.idle hc
  refine ⟨h.params, by simp, fun _ => ?_, by simp, h.fault, h.slots, ?_⟩
  · exact ⟨h0', hl, hm, by simp, h0', by simp⟩
  · refine ⟨h.storage.1, fun x hx => ?_, by simp⟩
    have := h.storage.2.1 x hx
    rw [hcap] at this; simp at this

theorem Inv_closeSession {s : State} (h : Inv s) : Inv (closeSession s) :=
  ⟨h.params, fun _ => ⟨rfl, rfl, rfl, rfl, rfl, rfl⟩, by simp, by simp, h.fault, h.slots,
    by simp [StorageLegal]⟩

theorem Inv_putBytes {s : State} (h : Inv s) (hc : s.constructed = true) {n : Nat} (ha : n ≤ avail s) (hr : CanPut n s) :
    Inv (putBytes n s) := by
  obtain ⟨h1, h2, h3, h4, h5, h6⟩ := h.ring hc
  obtain ⟨hr, hp⟩ := hr
  obtain ⟨r1, r2, r3, r4⟩ := ringRequires_iff.mp hr
  have hcap : s.capacity.toNat < 16777216 := s.capacity.isLt
  have hlen : ((servedPayload s).take n).length = n := by simp; omega
  have hav : s.size.toNat + n ≤ s.capacity.toNat := by unfold avail at ha; omega
  have hno := newOffset_lt r3 r2
  have hsz : (putBytes n s).size.toNat = s.size.toNat + n := by
    rw [putBytes_size, toNat_ofNat24 (by omega)]
  refine ⟨h.params, by simp [hc], fun _ => ?_, h.exited, h.fault, h.slots, ?_⟩
  · refine ⟨h1, h2, h3, ?_, h5, ?_⟩
    · rw [hsz]; exact hav
    · rw [hsz, putBytes_tail, toNat_ofNat24 (by omega), newOffset_eq_mod r3 r2, h6]
      simp [Nat.add_assoc]
  · refine ⟨ringStore_wf h.storage.1, fun x hx => ?_, fun i hi => ?_⟩
    · rcases mem_ringStore r3 (by omega) hx with hx | hx
      · exact hx
      · exact h.storage.2.1 x hx
    · rw [hsz] at hi
      simp only [putBytes_head, putBytes_capacity, putBytes_storage]
      by_cases hlt : i < s.size.toNat
      · rw [ringStore_lookup_other _ r3 (by omega)]
        · exact h.storage.2.2 i hlt
        · intro j hj he
          rw [hlen] at hj
          rw [h6, Nat.mod_add_mod, Nat.add_assoc] at he
          have := ring_index_inj h5 (by omega) (by omega) he
          omega
      · have : (s.head.toNat + i) % s.capacity.toNat = (s.tail.toNat + (i - s.size.toNat)) % s.capacity.toNat := by
          rw [h6, Nat.mod_add_mod]; congr 1; omega
        rw [this, ringStore_lookup_stored _ r3 (by omega) (by omega)]
        rw [List.getElem?_eq_getElem (by omega)]; rfl

theorem Inv_takeBytes {s : State} (h : Inv s) (hc : s.constructed = true) {n : Nat} (ha : n ≤ s.size.toNat)
    (hr : ringRequires s s.head.toNat n = true) : Inv (takeBytes n s) := by
  obtain ⟨h1, h2, h3, h4, h5, h6⟩ := h.ring hc
  obtain ⟨r1, r2, r3, r4⟩ := ringRequires_iff.mp hr
  have hcap : s.capacity.toNat < 16777216 := s.capacity.isLt
  have hno := newOffset_lt r3 r2
  have hsz : (takeBytes n s).size.toNat = s.size.toNat - n := by
    rw [takeBytes_size, toNat_ofNat24 (by omega)]
  have hhd : (takeBytes n s).head.toNat = (s.head.toNat + n) % s.capacity.toNat := by
    rw [takeBytes_head, toNat_ofNat24 (by omega), newOffset_eq_mod r3 r2]
  refine ⟨h.params, by simp [hc], fun _ => ?_, h.exited, h.fault, h.slots, ?_⟩
  · refine ⟨h1, h2, h3, ?_, ?_, ?_⟩
    · rw [hsz]; simp only [takeBytes_capacity]; omega
    · rw [takeBytes_head, toNat_ofNat24 (by omega)]; exact hno
    · rw [hsz, hhd]
      simp only [takeBytes_tail, takeBytes_capacity]
      rw [Nat.mod_add_mod, h6]; congr 1; omega
  · refine ⟨h.storage.1, h.storage.2.1, fun i hi => ?_⟩
    rw [hsz] at hi
    rw [hhd]
    simp only [takeBytes_capacity, takeBytes_storage]
    rw [Nat.mod_add_mod, Nat.add_assoc]
    exact h.storage.2.2 (n + i) (by omega)

theorem Inv_serve {s : State} (h : Inv s) (q : Port) : Inv (serve q s) :=
  ⟨h.params, h.idle, h.ring, h.exited, h.fault, h.slots, h.storage⟩

theorem Inv_resetPulse {s : State} (h : Inv s) : Inv (resetPulse s) :=
  ⟨h.params, fun _ => ⟨rfl, rfl, rfl, rfl, rfl, rfl⟩, by simp, by simp, by simp [FaultLegal], by simp [SlotLegal],
    by simp [StorageLegal]⟩

theorem Inv_accepted {s : State} (h : Inv s) {q : Port} {w : Word} {rest : List Word}
    (hl : payloadLen q w ≤ s.wdata.length) : Inv (accepted q w rest s) := by
  refine ⟨h.params, h.idle, h.ring, h.exited, h.fault, fun r => ?_, h.storage⟩
  show SlotLegal r ((s.pend.set q _).get r)
  rw [PerPort_get_set]
  split
  · next hr => subst hr; intro c hc; cases hc; simpa using hl
  · exact h.slots r

/-! ## Where the transfers answer a next state -/

theorem servedPayload_of_pend {s : State} {cmd : Command} (h : s.pend.get s.served = some cmd) :
    servedPayload s = cmd.payload := by unfold servedPayload; rw [h]

theorem decode_payload {cmd : Command} {i : Instr} {q : Port} {s : State} (h : Inv s) (hs : s.pend.get q = some cmd)
    (hd : decode cmd.word = .ok i) : cmd.payload.length = payloadOf q i := by
  have := h.slots q cmd hs
  rw [this]; unfold payloadLen; rw [hd]

theorem storeServed_next {s : State} (h : Inv s) (hc : s.constructed = true) {n : Nat} (h1 : 1 ≤ n) (ha : n ≤ avail s)
    (hp : n ≤ (servedPayload s).length) : ∃ t, storeServed n s = .next t := by
  obtain ⟨_, _, _, _, h5, h6⟩ := h.ring hc
  refine ⟨_, storeServed_eq_next.mpr ⟨⟨ringRequires_iff.mpr ⟨h1, by unfold avail at ha; omega, ?_, by omega⟩, hp⟩, rfl⟩⟩
  rw [h6]; exact Nat.mod_lt _ (by omega)

theorem deliverServed_next {s : State} (h : Inv s) (hc : s.constructed = true) {n : Nat} (h1 : 1 ≤ n)
    (ha : n ≤ s.size.toNat) : ∃ t, deliverServed n s = .next t := by
  obtain ⟨_, _, _, _, h5, h6⟩ := h.ring hc
  exact ⟨_, deliverServed_eq_next.mpr ⟨ringRequires_iff.mpr ⟨h1, by omega, h5, by omega⟩, rfl⟩⟩

theorem pos_of_ne {c : Count} (h : ¬ c = 0#24) : 1 ≤ c.toNat := by
  rcases Nat.eq_zero_or_pos c.toNat with h' | h'
  · exact absurd (BitVec.eq_of_toNat_eq (by simpa using h')) h
  · exact h'

theorem writeBody_next {s : State} (h : Inv s) (hc : s.constructed = true) {len : Count}
    (hp : (servedPayload s).length = len.toNat) : ∃ t, writeBody len s = .next t := by
  unfold writeBody
  split
  · exact ⟨_, rfl⟩
  · next h0 =>
    split
    · exact ⟨_, rfl⟩
    · next ha =>
      have := pos_of_ne h0
      exact storeServed_next h hc (by omega) (by omega) (by omega)

theorem readBody_next {s : State} (h : Inv s) (hc : s.constructed = true) {len : Count} :
    ∃ t, readBody len s = .next t := by
  unfold readBody
  split
  · exact ⟨_, rfl⟩
  · next h0 =>
    rw [not_or] at h0
    have h1 := pos_of_ne h0.1
    have h2 := pos_of_ne h0.2
    exact deliverServed_next h hc (by omega) (by omega)

theorem checked_next_of {i : Instr} {s : State} {body : State → Result}
    (h : commonCheck s.served i s = none → ∃ t, body s = .next t) : ∃ t, checked i s body = .next t := by
  unfold checked
  cases hk : commonCheck s.served i s with
  | some e => exact ⟨_, rfl⟩
  | none => exact h hk

end Sys2Proof.Machine
end

