-- ==== Sys2Proof/Laws/Stream.lean ====
section
/-! SUPPORT. The bytes held (10_state.md R108) under each shared operation, and the events a step adds (20_memory.md R224). -/

namespace Sys2Proof.Machine

/-! ## The bytes held -/

theorem memRead_eq {s : State} {a : Nat} {v : Byte} (h : Memory.lookup a s.storage = some v) : memRead s a = v := by
  unfold memRead; rw [h]

theorem contents_putBytes {s : State} (h : Inv s) (hc : s.constructed = true) {n : Nat} (ha : n ≤ avail s)
    (hr : CanPut n s) : contents (putBytes n s) = contents s ++ (servedPayload s).take n := by
  obtain ⟨h1, h2, h3, h4, h5, h6⟩ := h.ring hc
  obtain ⟨hr, hp⟩ := hr
  obtain ⟨r1, r2, r3, r4⟩ := ringRequires_iff.mp hr
  have hcap : s.capacity.toNat < 16777216 := s.capacity.isLt
  have hlen : ((servedPayload s).take n).length = n := by simp; omega
  have hav : s.size.toNat + n ≤ s.capacity.toNat := by unfold avail at ha; omega
  unfold contents
  rw [putBytes_size, toNat_ofNat24 (by omega), List.range_add, List.map_append]
  congr 1
  · refine List.map_congr_left fun i hi => ?_
    rw [List.mem_range] at hi
    unfold memRead
    simp only [putBytes_head, putBytes_capacity, putBytes_storage, putBytes_draw]
    rw [ringStore_lookup_other _ r3 (by omega)]
    intro j hj he
    rw [hlen] at hj
    rw [h6, Nat.mod_add_mod, Nat.add_assoc] at he
    have := ring_index_inj h5 (by omega) (by omega) he
    omega
  · rw [List.map_map]
    refine List.ext_getElem (by simp; omega) fun i h1' h2' => ?_
    simp only [List.getElem_map, List.getElem_range, Function.comp]
    have hi : i < n := by rw [hlen] at h2'; exact h2'
    refine memRead_eq ?_
    simp only [putBytes_head, putBytes_capacity, putBytes_storage]
    have : (s.head.toNat + (s.size.toNat + i)) % s.capacity.toNat = (s.tail.toNat + i) % s.capacity.toNat := by
      rw [h6, Nat.mod_add_mod]; congr 1; omega
    rw [this, ringStore_lookup_stored _ r3 (by omega) (by omega), List.getElem?_eq_getElem h2']

theorem contents_takeBytes {s : State} (h : Inv s) (hc : s.constructed = true) {n : Nat} (ha : n ≤ s.size.toNat)
    (hr : ringRequires s s.head.toNat n = true) :
    contents s = ringLoad s.capacity.toNat s.head.toNat n s ++ contents (takeBytes n s) := by
  obtain ⟨h1, h2, h3, h4, h5, h6⟩ := h.ring hc
  obtain ⟨r1, r2, r3, r4⟩ := ringRequires_iff.mp hr
  have hcap : s.capacity.toNat < 16777216 := s.capacity.isLt
  have hno := newOffset_lt r3 r2
  rw [ringLoad_eq _ r3 r2]
  unfold contents
  rw [takeBytes_size, takeBytes_head, toNat_ofNat24 (by omega), toNat_ofNat24 (by omega), newOffset_eq_mod r3 r2]
  conv => lhs; rw [show s.size.toNat = n + (s.size.toNat - n) by omega, List.range_add, List.map_append]
  congr 1
  rw [List.map_map]
  refine List.map_congr_left fun i hi => ?_
  simp only [Function.comp, takeBytes_capacity]
  rw [Nat.mod_add_mod, Nat.add_assoc]
  rfl

theorem contents_congr {s t : State} (h1 : t.size = s.size) (h2 : t.head = s.head) (h3 : t.capacity = s.capacity)
    (h4 : t.storage = s.storage) (h5 : t.draw = s.draw) : contents t = contents s := by
  unfold contents memRead; rw [h1, h2, h3, h4, h5]

theorem contents_of_idle {s : State} (h : s.size = 0#24) : contents s = [] := by
  unfold contents; rw [h]; rfl

/-! ## Events -/

theorem newEvents_self {q : Port} {s s' : State} (h : s'.trace.get q = s.trace.get q) : newEvents q s s' = [] := by
  unfold newEvents; rw [h]; simp
theorem newEvents_append {q : Port} {s s' : State} {es : List Event} (h : s'.trace.get q = s.trace.get q ++ es) :
    newEvents q s s' = es := by
  unfold newEvents; rw [h]; simp

end Sys2Proof.Machine
end

