-- ==== Sys2Proof/Laws/Guards.lean ====
section
/-! SUPPORT. When a guard is false (20_memory.md R211), what it takes for one to stay true, what STATUS packs (42_status_debug.md
R600), and the events that an answer adds. -/

namespace Sys2Proof.Machine

/-! ## Guards -/

theorem toNat_eq_zero_iff {c : Count} : c.toNat = 0 ↔ c = 0#24 :=
  ⟨fun h => BitVec.eq_of_toNat_eq (by simpa using h), fun h => by rw [h]; rfl⟩

/-- A PRODUCE on P waits exactly while a session lasts, the producer is not done and the chunk does not fit (R501). -/
theorem guardOf_produce_eq_false {s : State} {len : Count} :
    guardOf .p (.produce len) s = false ↔ s.constructed = true ∧ s.producerDone = false ∧ avail s < len.toNat := by
  unfold guardOf commonCheck
  cases s.constructed <;> cases s.producerDone <;> simp [portRights, needsBuffer]

/-- A CONSUME on C waits exactly while a session lasts, the producer is not done and no byte is held (R503). -/
theorem guardOf_consume_eq_false {s : State} {max : Count} :
    guardOf .c (.consume max) s = false ↔ s.constructed = true ∧ s.producerDone = false ∧ s.size.toNat = 0 := by
  unfold guardOf commonCheck
  cases s.constructed <;> cases s.producerDone <;> simp [portRights, needsBuffer]

theorem completeEnabled_of_legal {q : Port} {s : State} {cmd : Command} {i : Instr} (hs : s.pend.get q = some cmd)
    (hd : decode cmd.word = .ok i) : completeEnabled q s = guardOf q i s := by
  unfold completeEnabled
  simp only [hs, hd]

theorem completeEnabled_of_illegal {q : Port} {s : State} {cmd : Command} {e : DecodeError} (hs : s.pend.get q = some cmd)
    (hd : decode cmd.word = .error e) : completeEnabled q s = true := by
  unfold completeEnabled
  simp only [hs, hd]

/-- A guard that holds keeps holding where the session lasts, PRODUCER_DONE is not cleared, the free space that P waits for does
not shrink and the data that C waits for is not taken. -/
theorem guardOf_mono {q : Port} {i : Instr} {s t : State} (hc : s.constructed = true) (ht : t.constructed = true)
    (hd : s.producerDone = true → t.producerDone = true) (hp : q = .p → avail s ≤ avail t)
    (hs : q = .c → 0 < s.size.toNat → 0 < t.size.toNat) (hg : guardOf q i s = true) : guardOf q i t = true := by
  have hk : commonCheck q i t = commonCheck q i s := by unfold commonCheck; rw [hc, ht]
  cases i with
  | produce len =>
    unfold guardOf at *
    rw [hk]
    simp only [Bool.or_eq_true, decide_eq_true_eq] at *
    rcases hg with (hg | hg) | hg
    · exact .inl (.inl hg)
    · exact .inl (.inr (hd hg))
    · cases q with
      | p => exact .inr (Nat.le_trans hg (hp rfl))
      | c | h => exact .inl (.inl (by simp [commonCheck, portRights]))
  | consume len =>
    unfold guardOf at *
    rw [hk]
    simp only [Bool.or_eq_true, decide_eq_true_eq] at *
    rcases hg with (hg | hg) | hg
    · exact .inl (.inl hg)
    · cases q with
      | c => exact .inl (.inr (hs rfl hg))
      | p | h => exact .inl (.inl (by simp [commonCheck, portRights]))
    · exact .inr (hd hg)
  | construct _ | destroy | capacity | size | avail | write _ | read _ | signalProducerDone | status | head | tail => rfl

/-! ## Enabled steps -/

/-- Which port is marked as served enables nothing. -/
@[simp] theorem acceptEnabled_serve (q r : Port) (s : State) : acceptEnabled q (serve r s) = acceptEnabled q s := rfl

@[simp] theorem completeEnabled_serve (q r : Port) (s : State) : completeEnabled q (serve r s) = completeEnabled q s := by
  cases hs : s.pend.get q with
  | none => unfold completeEnabled; simp [hs]
  | some cmd =>
    cases hd : decode cmd.word with
    | error => rw [completeEnabled_of_illegal hs hd]; exact completeEnabled_of_illegal hs hd
    | ok i =>
      rw [completeEnabled_of_legal hs hd]
      refine (completeEnabled_of_legal hs hd).trans ?_
      cases i <;> rfl

theorem Stuck.serve {s : State} (h : Stuck s) (q : Port) : Stuck (serve q s) := by
  simpa [Stuck] using h

/-! ## STATUS -/

/-- The STATUS value as a sum of its fields (R600). -/
theorem statusValue_toNat (s : State) :
    (statusValue s).toNat
      = s.constructed.toNat + 2 * s.producerDone.toNat + 4 * s.consumerExited.toNat + 8 * (emptyFlag s).toNat
        + 16 * (fullFlag s).toNat + 32 * s.fault.toNat + 256 * s.faultCode.toNat + 4096 * (pWaiting s).toNat
        + 8192 * (cWaiting s).toNat := by
  unfold statusValue
  generalize s.constructed = a, s.producerDone = b, s.consumerExited = c, emptyFlag s = d, fullFlag s = e, s.fault = f,
    pWaiting s = g, cWaiting s = h, s.faultCode = k
  cases a <;> cases b <;> cases c <;> cases d <;> cases e <;> cases f <;> cases g <;> cases h <;> revert k <;> decide

/-! ## Events of an answer -/

theorem newEvents_respondOn (q r : Port) (st : Status) (val : Count) (data : List Byte) {s s₁ : State}
    (h : s₁.trace.get r = s.trace.get r) :
    newEvents r s (respondOn q st val data s₁) = if r = q then [.response ⟨responseWord st val, data⟩] else [] := by
  split
  · next hq => subst hq; exact newEvents_append (by simp [h])
  · next hq => exact newEvents_self (by simp [hq, h])

theorem newEvents_respond (r : Port) (st : Status) (val : Count) (data : List Byte) {s s₁ : State}
    (h : s₁.trace.get r = s.trace.get r) :
    newEvents r s (respond st val data s₁) = if r = s₁.served then [.response ⟨responseWord st val, data⟩] else [] :=
  newEvents_respondOn _ _ _ _ _ h

/-- What DESTROY sends on each port: its own answer on H, ABORTED where a PRODUCE or CONSUME is pending (R408). -/
theorem newEvents_destroy (r : Port) (s : State) :
    newEvents r s (respond .ok 0#24 [] (closeSession (abort .c (abort .p (serve .h s)))))
      = if r = .h then [.response ⟨0#32, []⟩]
        else if holdsBlocking (s.pend.get r) then [.response ⟨0x80000000#32, []⟩] else [] := by
  cases r
  · cases h : holdsBlocking (s.pend.get .p) <;> simp [newEvents, abort_trace, abort_pend, h]
  · cases h : holdsBlocking (s.pend.get .c) <;> simp [newEvents, abort_trace, abort_pend, h]
  · simp [newEvents, abort_trace]
    rfl

end Sys2Proof.Machine
end

