-- ==== Sys2Proof/Laws/PerInstr.lean ====
section
/-! SUPPORT. One statement about every operation as syntax, one lemma per constructor: the fields of its word (30_encoding.md R301,
R304, R305, R306), the operand its text shows (R314), and that only a port that may issue it carries its payload (R309). -/

namespace Sys2Proof.Laws.Fields

open Sys2Proof Sys2Proof.Machine

/-- The word of an operation is not reserved, has zero reserved bits and holds the operand its text shows, zero if it shows none;
and a port that brings a payload with it is P, which may issue it. -/
def Statement (i : Instr) : Prop :=
  reservedOp (opField (encode i)) = false ∧ rsvField (encode i) = 0#4
    ∧ opndField (encode i) = (shownOperand i).getD 0#24
    ∧ ∀ q, payloadOf q i ≠ 0 → q = .p ∧ q ∈ portRights i

theorem construct (cap : Count) : Statement (.construct cap) := by
  refine ⟨?_, rsvField_commandWord .., opndField_commandWord .., fun q h => ?_⟩
  · simp [encode, reservedOp]
  · cases q <;> simp_all [payloadOf]

theorem destroy : Statement .destroy := by
  refine ⟨?_, rsvField_commandWord .., opndField_commandWord .., fun q h => ?_⟩
  · simp [encode, reservedOp]
  · cases q <;> simp_all [payloadOf]

theorem capacity : Statement .capacity := by
  refine ⟨?_, rsvField_commandWord .., opndField_commandWord .., fun q h => ?_⟩
  · simp [encode, reservedOp]
  · cases q <;> simp_all [payloadOf]

theorem size : Statement .size := by
  refine ⟨?_, rsvField_commandWord .., opndField_commandWord .., fun q h => ?_⟩
  · simp [encode, reservedOp]
  · cases q <;> simp_all [payloadOf]

theorem avail : Statement .avail := by
  refine ⟨?_, rsvField_commandWord .., opndField_commandWord .., fun q h => ?_⟩
  · simp [encode, reservedOp]
  · cases q <;> simp_all [payloadOf]

theorem write (len : Count) : Statement (.write len) := by
  refine ⟨?_, rsvField_commandWord .., opndField_commandWord .., fun q h => ?_⟩
  · simp [encode, reservedOp]
  · cases q <;> simp_all [payloadOf, portRights]

theorem read (len : Count) : Statement (.read len) := by
  refine ⟨?_, rsvField_commandWord .., opndField_commandWord .., fun q h => ?_⟩
  · simp [encode, reservedOp]
  · cases q <;> simp_all [payloadOf]

theorem produce (len : Count) : Statement (.produce len) := by
  refine ⟨?_, rsvField_commandWord .., opndField_commandWord .., fun q h => ?_⟩
  · simp [encode, reservedOp]
  · cases q <;> simp_all [payloadOf, portRights]

theorem consume (max : Count) : Statement (.consume max) := by
  refine ⟨?_, rsvField_commandWord .., opndField_commandWord .., fun q h => ?_⟩
  · simp [encode, reservedOp]
  · cases q <;> simp_all [payloadOf]

theorem signalProducerDone : Statement .signalProducerDone := by
  refine ⟨?_, rsvField_commandWord .., opndField_commandWord .., fun q h => ?_⟩
  · simp [encode, reservedOp]
  · cases q <;> simp_all [payloadOf]

theorem status : Statement .status := by
  refine ⟨?_, rsvField_commandWord .., opndField_commandWord .., fun q h => ?_⟩
  · simp [encode, reservedOp]
  · cases q <;> simp_all [payloadOf]

theorem head : Statement .head := by
  refine ⟨?_, rsvField_commandWord .., opndField_commandWord .., fun q h => ?_⟩
  · simp [encode, reservedOp]
  · cases q <;> simp_all [payloadOf]

theorem tail : Statement .tail := by
  refine ⟨?_, rsvField_commandWord .., opndField_commandWord .., fun q h => ?_⟩
  · simp [encode, reservedOp]
  · cases q <;> simp_all [payloadOf]

end Sys2Proof.Laws.Fields
end

