-- ==== Sys2Proof/Tests/Slice0.lean ====
section
/-! SUPPORT. Tests of one step each against spec/95_test_vectors.md and words written out from 30_encoding.md, and for every statement
with hypotheses a witness that meets them. -/

namespace Sys2Proof.Tests

open Sys2Proof Sys2Proof.Machine

/-! ## Small states -/

/-- A constructed buffer `{cap, head, tail, size}` with some stored bytes, in the notation of 95_test_vectors.md. -/
def ring (cap head tail size : Count) (bytes : Memory) : State :=
  { State.reset with
    constructed := true, capacity := cap, head := head, tail := tail, size := size, storage := bytes }

/-- PRODUCER_DONE set. -/
def done (s : State) : State := { s with producerDone := true }

/-- A command pending on a port. -/
def pending (q : Port) (w : Word) (payload : List Byte) (s : State) : State :=
  { s with pend := s.pend.set q (some ⟨w, payload⟩) }

/-- A port about to be served, and being served. -/
def turn (q : Port) (s : State) : State := { s with turns := [.port q], served := q }

/-- The command whose completion is the next step. -/
def issue (q : Port) (w : Word) (payload : List Byte) (s : State) : State := turn q (pending q w payload s)

/-- What a port has seen, once a step has been taken. -/
def seen (q : Port) (r : Result) : Option (List Event) :=
  match r with
  | .next s => some (s.trace.get q)
  | .fault _ => none
  | .refused _ => none

/-- A port's observation of one answer. -/
def reply (w : Word) (data : List Byte) : Option (List Event) := some [.response ⟨w, data⟩]

/-- `(capacity, head, tail, size)` and the stored bytes, once a step has been taken. -/
def ringOf (r : Result) : Option ((Count × Count × Count × Count) × Memory) :=
  match r with
  | .next s => some ((s.capacity, s.head, s.tail, s.size), s.storage)
  | .fault _ => none
  | .refused _ => none

/-- `(CONSTRUCTED, PRODUCER_DONE, CONSUMER_EXITED, FAULT, FAULT_CODE)`, once a step has been taken. -/
def flagsOf (r : Result) : Option (Bool × Bool × Bool × Bool × Code) :=
  match r with
  | .next s => some (s.constructed, s.producerDone, s.consumerExited, s.fault, s.faultCode)
  | .fault _ => none
  | .refused _ => none

/-- `{8,4,3,7}` as L3-1 leaves it after s4. -/
def wrapped : State :=
  ring 8 4 3 7 [(0, 0x49), (1, 0x4A), (2, 0x4B), (3, 0x44), (4, 0x45), (5, 0x46), (6, 0x47), (7, 0x48)]

/-- `{8,0,6,6}` of the query vectors. -/
def six : State := ring 8 0 6 6 [(0, 0x41), (1, 0x42), (2, 0x43), (3, 0x44), (4, 0x45), (5, 0x46)]

/-- `{4,0,0,0}`. -/
def empty4 : State := ring 4 0 0 0 []

/-- `{4,0,0,4}`. -/
def full4 : State := ring 4 0 0 4 [(0, 0x01), (1, 0x02), (2, 0x03), (3, 0x04)]

/-- `{4,0,3,3}` of V-P3. -/
def three : State := ring 4 0 3 3 [(0, 0xA1), (1, 0xA2), (2, 0xA3)]

/-! ## Well-formedness: an ill-formed term for each check -/

theorem test_wf_write_on_p : WellFormed .p (.write 2) [0x01, 0x02] = true := by decide
theorem test_wf_refuses_short_payload : WellFormed .p (.write 2) [0x01] = false := by decide
theorem test_wf_refuses_long_produce : WellFormed .p (.produce 1) [0x01, 0x02] = false := by decide
theorem test_wf_refuses_payload_on_c : WellFormed .c (.write 1) [0x01] = false := by decide
theorem test_wf_refuses_payload_on_h : WellFormed .h (.produce 1) [0x01] = false := by decide
theorem test_wf_refuses_payload_of_read : WellFormed .p (.read 1) [0x01] = false := by decide
theorem test_params_default_legal : Params.default.Legal := by decide
theorem test_params_refuse_small_limit : ¬Params.Legal ⟨1, 1, .truncate⟩ := by decide
theorem test_params_refuse_large_limit : ¬Params.Legal ⟨0x1000000, 1, .truncate⟩ := by decide
theorem test_params_refuse_no_memory : ¬Params.Legal ⟨2, 0, .drop⟩ := by decide
theorem test_params_refuse_large_memory : ¬Params.Legal ⟨2, 0xFFFFFF, .drop⟩ := by decide

/-! ## Decoding: words written bit by bit from 30_encoding.md R301 and R303, `OP RSV OPND` -/

theorem test_decode_construct : decode 0b0001_0000_000000000001000000000000#32 = .ok (.construct 4096) := by decide
theorem test_decode_destroy : decode 0b0010_0000_000000000000000000000000#32 = .ok .destroy := by decide
theorem test_decode_capacity : decode 0b0011_0000_000000000000000000000000#32 = .ok .capacity := by decide
theorem test_decode_size : decode 0b0100_0000_000000000000000000000000#32 = .ok .size := by decide
theorem test_decode_avail : decode 0b0101_0000_000000000000000000000000#32 = .ok .avail := by decide
theorem test_decode_write : decode 0b0110_0000_100000000000000000000001#32 = .ok (.write 0x800001) := by decide
theorem test_decode_read : decode 0b0111_0000_000000000000000000001010#32 = .ok (.read 10) := by decide
theorem test_decode_produce : decode 0b1000_0000_000000000000100000000000#32 = .ok (.produce 2048) := by decide
theorem test_decode_consume : decode 0b1001_0000_111111111111111111111111#32 = .ok (.consume 0xFFFFFF) := by decide
theorem test_decode_signal : decode 0b1010_0000_000000000000000000000000#32 = .ok .signalProducerDone := by decide
theorem test_decode_status : decode 0b1011_0000_000000000000000000000000#32 = .ok .status := by decide
theorem test_decode_head : decode 0b1100_0000_000000000000000000000000#32 = .ok .head := by decide
theorem test_decode_tail : decode 0b1101_0000_000000000000000000000000#32 = .ok .tail := by decide
theorem test_decode_op0 : decode 0b0000_1111_111111111111111111111111#32 = .error .reservedOpcode := by decide
theorem test_decode_opE : decode 0b1110_0000_000000000000000000000000#32 = .error .reservedOpcode := by decide
theorem test_decode_opF : decode 0b1111_0000_000000000000000000000000#32 = .error .reservedOpcode := by decide
theorem test_decode_rsv : decode 0b0001_0001_000000000000000000001000#32 = .error .reservedBits := by decide
theorem test_decode_mbz : decode 0b0011_0000_000000000000000000000001#32 = .error .operandNotZero := by decide

/-- R311: V-W8 is a transaction of 6 bytes on P, V-W9 of 4 on C, V-W10 of 4. -/
theorem test_command_bytes :
    (commandBytes .p 0x60000002#32, commandBytes .c 0x60000002#32, commandBytes .p 0x61000002#32) = (6, 4, 4) := by decide

/-- R314: the text of L3-1 s2 shortened to two bytes, of V-C12 and of a query. -/
theorem test_text_write : commandText .p 0x60000002#32 [0x41, 0x4A] = "P: WRITE 0x000002 [41, 4A]" := by decide
theorem test_text_raw : commandText .h 0x11000008#32 [] = "H: raw 0x11000008" := by decide
theorem test_text_size : commandText .c 0x40000000#32 [] = "C: SIZE" := by decide

/-! ## One step against the vectors of 95_test_vectors.md -/

/-- V-C5. -/
theorem test_construct_all_memory : seen .h (step (issue .h 0x10010000#32 [] State.reset)) = reply 0x00010000#32 [] := by decide
/-- V-C6. -/
theorem test_construct_too_large :
    seen .h (step (issue .h 0x10010001#32 [] State.reset)) = reply 0x40000000#32 [] := by decide
/-- V-D3: the pending CONSUME is aborted. -/
theorem test_destroy_aborts :
    seen .c (step (issue .h 0x20000000#32 [] (pending .c 0x90000008#32 [] empty4))) = reply 0x80000000#32 [] := by decide
/-- V-D3: unconstructed, FAULT with code 8. -/
theorem test_destroy_flags :
    flagsOf (step (issue .h 0x20000000#32 [] (pending .c 0x90000008#32 [] empty4))) = some (false, false, false, true, 8) := by
  decide
/-- V-Q1. -/
theorem test_capacity : seen .c (step (issue .c 0x30000000#32 [] six)) = reply 0x00000008#32 [] := by decide
/-- V-Q2. -/
theorem test_size : seen .p (step (issue .p 0x40000000#32 [] six)) = reply 0x00000006#32 [] := by decide
/-- V-Q5. -/
theorem test_size_without_buffer : seen .c (step (issue .c 0x40000000#32 [] State.reset)) = reply 0x50000000#32 [] := by decide
/-- V-Q3. -/
theorem test_avail : seen .h (step (issue .h 0x50000000#32 [] six)) = reply 0x00000002#32 [] := by decide
/-- L3-1 s4: the split write of 5 bytes, the old bytes from L3-1 s2. -/
theorem test_write_splits :
    ringOf (step (issue .p 0x60000005#32 [0x47, 0x48, 0x49, 0x4A, 0x4B]
      (ring 8 4 6 2 [(0, 0x41), (1, 0x42), (2, 0x43), (3, 0x44), (4, 0x45), (5, 0x46)])))
      = some ((8, 4, 3, 7), wrapped.storage) := by decide
/-- V-W12: short and split. -/
theorem test_write_short :
    seen .p (step (issue .p 0x60000007#32 [0xB0, 0xB1, 0xB2, 0xB3, 0xB4, 0xB5, 0xB6]
      (ring 8 3 6 3 [(3, 0), (4, 0), (5, 0)]))) = reply 0x00000005#32 [] := by decide
/-- L3-1 s9. -/
theorem test_read_wraps :
    seen .c (step (issue .c 0x70000008#32 [] wrapped))
      = reply 0x00000007#32 [0x45, 0x46, 0x47, 0x48, 0x49, 0x4A, 0x4B] := by decide
/-- V-R6: an exact fit wraps HEAD to 0. -/
theorem test_read_exact_fit :
    ringOf (step (issue .c 0x70000003#32 [] (ring 8 5 0 3 [(5, 0xA), (6, 0xB), (7, 0xC)])))
      = some ((8, 0, 0, 0), [(5, 0xA), (6, 0xB), (7, 0xC)]) := by decide
/-- V-P8: a chunk that fits is stored whole after PRODUCER_DONE. -/
theorem test_produce_fits :
    ringOf (step (issue .p 0x80000002#32 [0xD1, 0xD2] (done (ring 4 0 1 1 [(0, 0)]))))
      = some ((4, 0, 3, 3), [(0, 0), (1, 0xD1), (2, 0xD2)]) := by decide
/-- V-P3: it waits without room. -/
theorem test_produce_waits : seen .p (step (issue .p 0x80000002#32 [0xB1, 0xB2] three)) = some [] := by decide
/-- V-N1. -/
theorem test_consume : seen .c (step (issue .c 0x90000002#32 [] three)) = reply 0x00000002#32 [0xA1, 0xA2] := by decide
/-- V-N6: END_OF_DATA even for CONSUME 0, and CONSUMER_EXITED. -/
theorem test_consume_ends :
    flagsOf (step (issue .c 0x90000000#32 [] (done empty4))) = some (true, true, true, false, 0) := by decide
/-- V-S1. -/
theorem test_signal : flagsOf (step (issue .h 0xA0000000#32 [] empty4)) = some (true, true, false, false, 0) := by decide
/-- V-S3. -/
theorem test_signal_on_c : flagsOf (step (issue .c 0xA0000000#32 [] empty4)) = some (true, false, false, true, 7) := by decide
/-- V-N2. -/
theorem test_status_c_waits :
    seen .h (step (issue .h 0xB0000000#32 [] (pending .c 0x90000004#32 [] empty4))) = reply 0x00002009#32 [] := by decide
/-- V-T5. -/
theorem test_status_p_waits :
    seen .h (step (issue .h 0xB0000000#32 [] (pending .p 0x80000001#32 [0x01] full4))) = reply 0x00001011#32 [] := by decide
/-- V-T7. -/
theorem test_head : seen .h (step (issue .h 0xC0000000#32 [] wrapped)) = reply 0x00000004#32 [] := by decide
theorem test_tail : seen .h (step (issue .h 0xD0000000#32 [] wrapped)) = reply 0x00000003#32 [] := by decide
/-- V-I5. -/
theorem test_illegal_word : seen .h (step (issue .h 0x31000000#32 [] six)) = reply 0x70000000#32 [] := by decide
/-- V-X1: the pending CONSUME is dropped without a response. -/
theorem test_reset_drops :
    seen .c (step { pending .c 0x90000001#32 [] six with turns := [.reset] }) = some [] := by decide
/-- V-RING3 and V-RING1: the new offset of an exact fit and of a split. -/
theorem test_new_offset : (newOffset 8 7 1, newOffset 8 6 5, newOffset 8 3 2) = (0, 3, 5) := by decide

/-- The host's placing of a word: the next step runs it. -/
theorem test_fetch_word :
    seen .p (step (State.reset.withFetchWord 32 0x60000001)) = reply 0x50000000#32 [] := by decide

/-! ## Witnesses: states and operands that meet the hypotheses of each statement, at the boundaries of its clauses -/

/-- A SIZE pending on C after reset. -/
def resetSize : State := issue .c 0x40000000#32 [] State.reset

/-- A WRITE of two bytes to one free byte. -/
def writeTwo : State := issue .p 0x60000002#32 [0x01, 0x02] three

/-- A WRITE of one byte to one free byte. -/
def writeOne : State := issue .p 0x60000001#32 [0x01] three

/-- A WRITE to a full buffer. -/
def writeFull : State := issue .p 0x60000001#32 [0xFF] full4

/-- A WRITE of nothing to a full buffer. -/
def writeZeroFull : State := issue .p 0x60000000#32 [] full4

/-- A PRODUCE without room at shutdown. -/
def shutdownTwo : State := issue .p 0x80000002#32 [0xB1, 0xB2] (done three)

/-- A PRODUCE to a full buffer at shutdown. -/
def shutdownFull : State := issue .p 0x80000001#32 [0xC1] (done full4)

/-- A PRODUCE that just fits. -/
def produceOne : State := issue .p 0x80000001#32 [0xB1] three

/-- A PRODUCE that is one byte too long. -/
def produceTwo : State := issue .p 0x80000002#32 [0xB1, 0xB2] three

/-- A PRODUCE of nothing to a full buffer. -/
def produceZeroFull : State := issue .p 0x80000000#32 [] full4

/-- A PRODUCE longer than the capacity, and a SIZE on C. -/
def overlong : State := issue .c 0x40000000#32 [] (pending .p 0x80000005#32 [1, 2, 3, 4, 5] empty4)

/-- A WRITE pending on P and a READ on C. -/
def writeThenRead : State := pending .p 0x60000001#32 [0x77] (pending .c 0x70000002#32 [] three)

/-- A CONSUME that will report the end of data. -/
def consumeEnds : State := pending .c 0x90000004#32 [] (done empty4)

/-- A CONSTRUCT after reset. -/
def constructing : State := issue .h 0x10000004#32 [] State.reset

/-- A DESTROY while bytes are held. -/
def destroying : State := issue .h 0x20000000#32 [] three

/-- A SIGNAL_PRODUCER_DONE while running. -/
def signalling : State := issue .h 0xA0000000#32 [] three

/-- Two bytes held and one stale byte. -/
def stale : State := pending .c 0x70000001#32 [] (ring 4 1 3 2 [(0, 0xA1), (1, 0xA2), (2, 0xA3)])

/-- A DESTROY with a CONSUME waiting on C. -/
def abortOne : State := issue .h 0x20000000#32 [] (pending .c 0x90000008#32 [] empty4)

/-- The same under DROP. -/
def shutdownDrop : State := { issue .p 0x80000002#32 [0xB1, 0xB2] (done three) with params := ⟨0xFFFFFF, 65536, .drop⟩ }

/-- The same bytes held, in another draw and without the stale byte. -/
def notStale : State := { pending .c 0x70000001#32 [] (ring 4 1 3 2 [(1, 0xA2), (2, 0xA3)]) with draw := 9 }

/-- A legal state, its parts decided one by one. -/
theorem legal_of {s : State} (h₁ : s.params.Legal) (h₂ : s.constructed = false → IdleLegal s)
    (h₃ : s.constructed = true → RingLegal s) (h₄ : s.consumerExited = true → s.producerDone = true) (h₅ : FaultLegal s)
    (h₆ : SlotLegal .p (s.pend.get .p) ∧ SlotLegal .c (s.pend.get .c) ∧ SlotLegal .h (s.pend.get .h))
    (h₇ : StorageLegal s) : Inv s :=
  ⟨h₁, h₂, h₃, h₄, h₅, fun q => match q with | .p => h₆.1 | .c => h₆.2.1 | .h => h₆.2.2, h₇⟩

theorem slot_none (q : Port) : SlotLegal q none := fun _ h => nomatch h

theorem slot_some {q : Port} {cmd : Command} (h : cmd.payload.length = payloadLen q cmd.word) : SlotLegal q (some cmd) :=
  fun _ hc => Option.some.inj hc ▸ h

theorem legal_reset_size_on_c : Inv resetSize :=
  legal_of (by decide) (by decide) (by decide) (by decide) (by decide)
    ⟨slot_none _, slot_some (by decide), slot_none _⟩ (by decide)

theorem legal_wrapped : Inv (turn .c wrapped) :=
  legal_of (by decide) (by decide) (by decide) (by decide) (by decide) ⟨slot_none _, slot_none _, slot_none _⟩ (by decide)

theorem legal_three : Inv (turn .c three) :=
  legal_of (by decide) (by decide) (by decide) (by decide) (by decide) ⟨slot_none _, slot_none _, slot_none _⟩ (by decide)

theorem legal_empty4 : Inv (turn .c empty4) :=
  legal_of (by decide) (by decide) (by decide) (by decide) (by decide) ⟨slot_none _, slot_none _, slot_none _⟩ (by decide)

theorem legal_done_empty4 : Inv (turn .c (done empty4)) :=
  legal_of (by decide) (by decide) (by decide) (by decide) (by decide) ⟨slot_none _, slot_none _, slot_none _⟩ (by decide)

theorem legal_write_two : Inv writeTwo :=
  legal_of (by decide) (by decide) (by decide) (by decide) (by decide)
    ⟨slot_some (by decide), slot_none _, slot_none _⟩ (by decide)

theorem legal_write_one : Inv writeOne :=
  legal_of (by decide) (by decide) (by decide) (by decide) (by decide)
    ⟨slot_some (by decide), slot_none _, slot_none _⟩ (by decide)

theorem legal_write_full : Inv writeFull :=
  legal_of (by decide) (by decide) (by decide) (by decide) (by decide)
    ⟨slot_some (by decide), slot_none _, slot_none _⟩ (by decide)

theorem legal_write_zero_full : Inv writeZeroFull :=
  legal_of (by decide) (by decide) (by decide) (by decide) (by decide)
    ⟨slot_some (by decide), slot_none _, slot_none _⟩ (by decide)

theorem legal_produce_fits : Inv produceOne :=
  legal_of (by decide) (by decide) (by decide) (by decide) (by decide)
    ⟨slot_some (by decide), slot_none _, slot_none _⟩ (by decide)

theorem legal_produce_zero_full : Inv produceZeroFull :=
  legal_of (by decide) (by decide) (by decide) (by decide) (by decide)
    ⟨slot_some (by decide), slot_none _, slot_none _⟩ (by decide)

theorem legal_produce_waits : Inv produceTwo :=
  legal_of (by decide) (by decide) (by decide) (by decide) (by decide)
    ⟨slot_some (by decide), slot_none _, slot_none _⟩ (by decide)

theorem legal_produce_shutdown : Inv shutdownTwo :=
  legal_of (by decide) (by decide) (by decide) (by decide) (by decide)
    ⟨slot_some (by decide), slot_none _, slot_none _⟩ (by decide)

theorem legal_produce_shutdown_full : Inv shutdownFull :=
  legal_of (by decide) (by decide) (by decide) (by decide) (by decide)
    ⟨slot_some (by decide), slot_none _, slot_none _⟩ (by decide)

theorem legal_produce_drop : Inv shutdownDrop :=
  legal_of (by decide) (by decide) (by decide) (by decide) (by decide)
    ⟨slot_some (by decide), slot_none _, slot_none _⟩ (by decide)

theorem legal_produce_overlong : Inv overlong :=
  legal_of (by decide) (by decide) (by decide) (by decide) (by decide)
    ⟨slot_some (by decide), slot_some (by decide), slot_none _⟩ (by decide)

theorem legal_write_then_read : Inv writeThenRead :=
  legal_of (by decide) (by decide) (by decide) (by decide) (by decide)
    ⟨slot_some (by decide), slot_some (by decide), slot_none _⟩ (by decide)

theorem legal_consume_ends : Inv consumeEnds :=
  legal_of (by decide) (by decide) (by decide) (by decide) (by decide)
    ⟨slot_none _, slot_some (by decide), slot_none _⟩ (by decide)

theorem legal_construct : Inv constructing :=
  legal_of (by decide) (by decide) (by decide) (by decide) (by decide)
    ⟨slot_none _, slot_none _, slot_some (by decide)⟩ (by decide)

theorem legal_destroy : Inv destroying :=
  legal_of (by decide) (by decide) (by decide) (by decide) (by decide)
    ⟨slot_none _, slot_none _, slot_some (by decide)⟩ (by decide)

theorem legal_signal : Inv signalling :=
  legal_of (by decide) (by decide) (by decide) (by decide) (by decide)
    ⟨slot_none _, slot_none _, slot_some (by decide)⟩ (by decide)

theorem legal_stale : Inv stale :=
  legal_of (by decide) (by decide) (by decide) (by decide) (by decide)
    ⟨slot_none _, slot_some (by decide), slot_none _⟩ (by decide)

theorem legal_not_stale : Inv notStale :=
  legal_of (by decide) (by decide) (by decide) (by decide) (by decide)
    ⟨slot_none _, slot_some (by decide), slot_none _⟩ (by decide)

theorem witness_EncodeOfDecodeIsTheWord :
    decode 0x70FFFFFF#32 = .ok (.read 0xFFFFFF) := by decide

theorem witness_StepRunsTheDecodedOperation :
    (issue .c 0x40000000#32 [] six).turns = [.port .c]
      ∧ (issue .c 0x40000000#32 [] six).pend.get .c = some ⟨0x40000000#32, []⟩ ∧ decode 0x40000000#32 = .ok .size := by decide

/-- A producer that presents a WRITE of 2 bytes and some bytes. -/
def presents (bytes : List Byte) : State := { empty4 with inbox := ⟨[0x60000002#32], [], []⟩, wdata := bytes }

theorem witness_AcceptTakesTheWordAndItsWholePayload :
    (presents [1, 2]).pend.get .p = none ∧ (presents [1, 2]).inbox.get .p = 0x60000002#32 :: []
      ∧ payloadLen .p 0x60000002#32 ≤ (presents [1, 2]).wdata.length ∧ (presents [1]).pend.get .p = none
      ∧ (presents [1]).inbox.get .p = 0x60000002#32 :: [] ∧ (presents [1]).wdata.length < payloadLen .p 0x60000002#32 := by decide

theorem witness_EnabledCommandsAreAnsweredInTheirTurn :
    (Inv produceOne ∧ produceOne.pend.get .p ≠ none
        ∧ completeEnabled .p produceOne = true)
      ∧ Inv produceTwo ∧ produceTwo.pend.get .p ≠ none
        ∧ completeEnabled .p produceTwo = false :=
  ⟨⟨legal_produce_fits, by decide, by decide⟩, legal_produce_waits, by decide, by decide⟩

theorem witness_IllegalWordsAreAnsweredIllegalCommand :
    (0x0FFFFFFF#32 : Word).toNat / 2 ^ 28 ∈ [0, 14, 15] ∧ (0x61000002#32 : Word).toNat / 2 ^ 24 % 16 ≠ 0
      ∧ ((0x30000001#32 : Word).toNat / 2 ^ 28 ∈ [2, 3, 4, 5, 10, 11, 12, 13] ∧ (0x30000001#32 : Word).toNat % 2 ^ 24 ≠ 0)
      ∧ (issue .p 0x61000002#32 [] six).pend.get .p = some ⟨0x61000002#32, []⟩ := by decide

theorem witness_PortRightsAreTheTable :
    (turn .p six).served ∉ [Port.h] ∧ (turn .c six).served ∉ [Port.p] ∧ (turn .h six).served ∉ [Port.c]
      ∧ (turn .c six).served ∉ [Port.p, Port.h]
      ∧ ∃ t, exec (.write 2) (turn .c six) = .next t
        ∧ t.trace.get .c = (turn .c six).trace.get .c ++ [.response ⟨0x70000000#32, []⟩] :=
  ⟨by decide, by decide, by decide, by decide, _, rfl, by decide⟩

theorem witness_WithoutABufferOperationsAnswerNoBuffer :
    (turn .h State.reset).served ∈ [Port.h] ∧ (turn .p State.reset).served ∈ [Port.p] ∧ (turn .c State.reset).served ∈ [Port.c]
      ∧ (turn .h State.reset).constructed = false := by decide

theorem witness_AfterResetOnlyConstructAndStatusWork :
    Port.c ∈ portRights (.read 1) ∧ Instr.read 1 ≠ .status ∧ ∀ cap, Instr.read 1 ≠ .construct cap :=
  ⟨by decide, by decide, nofun⟩

theorem witness_ConstructOpensASessionOrFailsInOrder :
    ((turn .h six).served = .h ∧ (turn .h six).constructed = true)
      ∧ (turn .h State.reset).served = .h ∧ (turn .h State.reset).constructed = false
      ∧ ((0 : Count).toNat = 0 ∧ (turn .h State.reset).params.capLimit ≤ (0xFFFFFF : Count).toNat)
      ∧ (1 ≤ (65537 : Count).toNat ∧ (65537 : Count).toNat < (turn .h State.reset).params.capLimit
        ∧ (turn .h State.reset).params.memBytes < (65537 : Count).toNat)
      ∧ (1 ≤ (1 : Count).toNat ∧ (1 : Count).toNat < (turn .h State.reset).params.capLimit
        ∧ (1 : Count).toNat ≤ (turn .h State.reset).params.memBytes)
      ∧ 1 ≤ (65536 : Count).toNat ∧ (65536 : Count).toNat < (turn .h State.reset).params.capLimit
      ∧ (65536 : Count).toNat ≤ (turn .h State.reset).params.memBytes := by decide

theorem witness_LargestConstructibleCapacity :
    (turn .h State.reset).params.Legal ∧ (turn .h State.reset).served = .h
      ∧ (turn .h State.reset).constructed = false := by decide

theorem witness_DestroyEndsTheSessionAndAborts :
    abortOne.served = .h
      ∧ abortOne.constructed = true := by decide

theorem witness_CountQueriesAnswer :
    full4.constructed = true ∧ full4.size.toNat ≤ full4.capacity.toNat
      ∧ (turn .p State.reset).served ∈ [Port.p, .c, .h] ∧ (turn .p State.reset).constructed = false := by decide

theorem witness_OffsetQueriesAnswer :
    (turn .c empty4).constructed = true ∧ Inv (turn .c empty4) ∧ (turn .c empty4).size.toNat = 0
      ∧ (turn .p State.reset).served ∈ [Port.p, .c, .h] ∧ (turn .p State.reset).constructed = false :=
  ⟨by decide, legal_empty4, by decide, by decide, by decide⟩

theorem witness_StatusReportsEveryFlag :
    ((issue .p 0xB0000000#32 [] six).served = .p ∧ (issue .p 0xB0000000#32 [] six).pend.get .p = some ⟨0xB0000000#32, []⟩)
      ∧ (issue .c 0xB0000000#32 [] six).served = .c ∧ (issue .c 0xB0000000#32 [] six).pend.get .c = some ⟨0xB0000000#32, []⟩ := by decide

theorem witness_WriteStoresWhatFits :
    (Inv writeZeroFull ∧ writeZeroFull.constructed = true ∧ writeZeroFull.served = .p
        ∧ (∃ cmd, writeZeroFull.pend.get .p = some cmd ∧ decode cmd.word = .ok (.write 0)) ∧ (0 : Count).toNat = 0)
      ∧ (Inv writeFull ∧ writeFull.constructed = true ∧ writeFull.served = .p
        ∧ (∃ cmd, writeFull.pend.get .p = some cmd ∧ decode cmd.word = .ok (.write 1)) ∧ (1 : Count).toNat ≠ 0
          ∧ writeFull.capacity.toNat - writeFull.size.toNat = 0)
      ∧ (Inv writeOne ∧ writeOne.constructed = true ∧ writeOne.served = .p
        ∧ (∃ cmd, writeOne.pend.get .p = some cmd ∧ decode cmd.word = .ok (.write 1)) ∧ (1 : Count).toNat ≠ 0
          ∧ writeOne.capacity.toNat - writeOne.size.toNat ≠ 0)
      ∧ (Inv writeTwo ∧ writeTwo.constructed = true ∧ writeTwo.served = .p
        ∧ (∃ cmd, writeTwo.pend.get .p = some cmd ∧ decode cmd.word = .ok (.write 2)) ∧ (2 : Count).toNat ≠ 0
          ∧ writeTwo.capacity.toNat - writeTwo.size.toNat ≠ 0) :=
  ⟨⟨legal_write_zero_full, by decide, by decide, ⟨_, rfl, by decide⟩, by decide⟩,
    ⟨legal_write_full, by decide, by decide, ⟨_, rfl, by decide⟩, by decide⟩,
    ⟨legal_write_one, by decide, by decide, ⟨_, rfl, by decide⟩, by decide⟩,
    ⟨legal_write_two, by decide, by decide, ⟨_, rfl, by decide⟩, by decide⟩⟩

theorem witness_ReadDeliversTheOldestBytes :
    (Inv (turn .c empty4) ∧ (turn .c empty4).constructed = true ∧ (turn .c empty4).served = .c
        ∧ (turn .c empty4).size.toNat = 0)
      ∧ Inv (turn .c wrapped) ∧ (turn .c wrapped).constructed = true ∧ (turn .c wrapped).served = .c ∧ (0 : Count).toNat = 0
        ∧ (7 : Count).toNat ≠ 0 ∧ (turn .c wrapped).size.toNat ≠ 0 :=
  ⟨⟨legal_empty4, by decide, by decide, by decide⟩, legal_wrapped, by decide, by decide, by decide, by decide, by decide⟩

theorem witness_ProduceStoresTheWholeChunk :
    (Inv produceZeroFull ∧ produceZeroFull.constructed = true ∧ produceZeroFull.served = .p
        ∧ (∃ cmd, produceZeroFull.pend.get .p = some cmd ∧ decode cmd.word = .ok (.produce 0))
          ∧ (0 : Count).toNat ≤ produceZeroFull.capacity.toNat - produceZeroFull.size.toNat)
      ∧ (Inv produceOne ∧ produceOne.constructed = true ∧ produceOne.served = .p
        ∧ (∃ cmd, produceOne.pend.get .p = some cmd ∧ decode cmd.word = .ok (.produce 1))
          ∧ (1 : Count).toNat ≤ produceOne.capacity.toNat - produceOne.size.toNat ∧ (1 : Count).toNat ≠ 0) :=
  ⟨⟨legal_produce_zero_full, by decide, by decide, ⟨_, rfl, by decide⟩, by decide⟩,
    ⟨legal_produce_fits, by decide, by decide, ⟨_, rfl, by decide⟩, by decide⟩⟩

theorem witness_ProduceWaitsForRoom :
    (turn .p three).constructed = true ∧ (turn .p three).served = .p ∧ (turn .p three).producerDone = false
      ∧ (turn .p three).capacity.toNat - (turn .p three).size.toNat < (2 : Count).toNat := by decide

theorem witness_ProduceAtShutdownFollowsThePolicy :
    (Inv produceTwo ∧ produceTwo.constructed = true
        ∧ produceTwo.served = .p
        ∧ (∃ cmd, produceTwo.pend.get .p = some cmd ∧ decode cmd.word = .ok (.produce 2))
        ∧ produceTwo.producerDone = false ∧ three.capacity.toNat - three.size.toNat < (2 : Count).toNat)
      ∧ (Inv shutdownFull ∧ shutdownFull.constructed = true ∧ shutdownFull.served = .p
        ∧ (∃ cmd, shutdownFull.pend.get .p = some cmd ∧ decode cmd.word = .ok (.produce 1))
          ∧ shutdownFull.producerDone = true ∧ shutdownFull.capacity.toNat - shutdownFull.size.toNat < (1 : Count).toNat
        ∧ shutdownFull.params.policy = .truncate ∧ shutdownFull.capacity.toNat - shutdownFull.size.toNat = 0)
      ∧ (Inv shutdownTwo ∧ shutdownTwo.constructed = true ∧ shutdownTwo.served = .p
        ∧ (∃ cmd, shutdownTwo.pend.get .p = some cmd ∧ decode cmd.word = .ok (.produce 2))
          ∧ shutdownTwo.producerDone = true ∧ shutdownTwo.capacity.toNat - shutdownTwo.size.toNat < (2 : Count).toNat
        ∧ shutdownTwo.params.policy = .truncate ∧ shutdownTwo.capacity.toNat - shutdownTwo.size.toNat ≠ 0)
      ∧ (Inv shutdownDrop ∧ shutdownDrop.constructed = true ∧ shutdownDrop.served = .p
        ∧ (∃ cmd, shutdownDrop.pend.get .p = some cmd ∧ decode cmd.word = .ok (.produce 2))
          ∧ shutdownDrop.producerDone = true ∧ shutdownDrop.capacity.toNat - shutdownDrop.size.toNat < (2 : Count).toNat
        ∧ shutdownDrop.params.policy = .drop) :=
  ⟨⟨legal_produce_waits, by decide, by decide, ⟨_, rfl, by decide⟩, by decide⟩,
    ⟨legal_produce_shutdown_full, by decide, by decide, ⟨_, rfl, by decide⟩, by decide⟩,
    ⟨legal_produce_shutdown, by decide, by decide, ⟨_, rfl, by decide⟩, by decide⟩,
    ⟨legal_produce_drop, by decide, by decide, ⟨_, rfl, by decide⟩, by decide⟩⟩

theorem witness_ConsumeDeliversEndsOrWaits :
    (Inv (turn .c three) ∧ (turn .c three).constructed = true ∧ (turn .c three).served = .c ∧ (turn .c three).size.toNat ≠ 0
        ∧ (0 : Count).toNat = 0 ∧ (3 : Count).toNat ≠ 0)
      ∧ (Inv (turn .c (done empty4)) ∧ (turn .c (done empty4)).constructed = true ∧ (turn .c (done empty4)).served = .c
        ∧ (turn .c (done empty4)).size.toNat = 0 ∧ (turn .c (done empty4)).producerDone = true)
      ∧ Inv (turn .c empty4) ∧ (turn .c empty4).constructed = true ∧ (turn .c empty4).served = .c
        ∧ (turn .c empty4).size.toNat = 0 ∧ (turn .c empty4).producerDone = false :=
  ⟨⟨legal_three, by decide, by decide, by decide, by decide, by decide⟩,
    ⟨legal_done_empty4, by decide, by decide, by decide, by decide⟩, legal_empty4, by decide, by decide, by decide, by decide⟩

theorem witness_SignalSetsProducerDoneAndWakesAll :
    ((turn .h six).constructed = true ∧ (turn .h six).served ∈ [Port.p, .h])
      ∧ (turn .p (done six)).served ∈ [Port.p, .h] ∧ (turn .p (done six)).producerDone = true
      ∧ (pending .c 0x90000004#32 [] empty4).pend.get .c ≠ none := by decide

theorem witness_QueriesLeaveEverythingElse :
    Instr.status ∈ [Instr.capacity, .size, .avail, .status, .head, .tail] ∧ (∃ t, exec .status (turn .c six) = .next t)
      ∧ (turn .c six).constructed = true := ⟨by decide, ⟨_, rfl⟩, by decide⟩

theorem witness_StoresLeaveEverythingElse :
    Instr.write 2 ∈ [Instr.write 2, .produce 2]
      ∧ (∃ t, exec (.write 2) writeTwo = .next t ∧ t.size.toNat = 4)
      ∧ (turn .p three).constructed = true ∧ (turn .p three).served = .p := ⟨by decide, ⟨_, rfl, by decide⟩, by decide⟩

theorem witness_DeliveriesLeaveEverythingElse :
    Instr.consume 2 ∈ [Instr.read 2, .consume 2] ∧ (∃ t, exec (.consume 2) (turn .c three) = .next t ∧ t.size.toNat = 1)
      ∧ (turn .c three).constructed = true ∧ (turn .c three).served = .c := ⟨by decide, ⟨_, rfl, by decide⟩, by decide⟩

theorem witness_SessionControlLeavesEverythingElse :
    (∃ t, exec (.construct 4) (turn .h State.reset) = .next t ∧ t.constructed = true)
      ∧ (turn .h State.reset).constructed = false ∧ (turn .h State.reset).served = .h
      ∧ (∃ t, exec .signalProducerDone (turn .p six) = .next t ∧ t.producerDone = true)
      ∧ (turn .p six).constructed = true ∧ (turn .p six).served ≠ .c :=
  ⟨⟨_, rfl, by decide⟩, by decide, by decide, ⟨_, rfl, by decide⟩, by decide, by decide⟩

theorem witness_DestroyLeavesTheRest :
    (∃ t, exec .destroy (turn .h (pending .c 0x70000001#32 [] six)) = .next t ∧ t.constructed = false)
      ∧ Port.c ≠ (turn .h (pending .c 0x70000001#32 [] six)).served
      ∧ holdsBlocking ((turn .h (pending .c 0x70000001#32 [] six)).pend.get .c) = false
      ∧ (∃ t, exec .destroy { turn .h six with fault := true, faultCode := 5 } = .next t)
      ∧ (∃ t, exec .destroy (turn .p six) = .next t) ∧ (turn .p six).served ≠ .h :=
  ⟨⟨_, rfl, by decide⟩, by decide, by decide, ⟨_, rfl⟩, ⟨_, rfl⟩, by decide⟩

theorem witness_StepsKeepTheStateLegal :
    Inv resetSize ∧ (∃ t, step resetSize = .next t)
      ∧ Inv writeTwo ∧ ∃ t, act (.port .p) writeTwo = .next t :=
  ⟨legal_reset_size_on_c, ⟨_, rfl⟩, legal_write_two, _, rfl⟩

theorem witness_LegalStatesNeverStop :
    Inv resetSize ∧ Inv (turn .c wrapped) := ⟨legal_reset_size_on_c, legal_wrapped⟩

theorem witness_StorageStaysCanonical :
    Memory.wf writeTwo.storage
      ∧ ∃ t, act (.port .p) writeTwo = .next t := ⟨by decide, _, rfl⟩

theorem witness_SizePlusAvailIsCapacity :
    Inv writeTwo ∧ ∃ t, act (.port .p) writeTwo = .next t :=
  ⟨legal_write_two, _, rfl⟩

theorem witness_CapacityIsFixedInASession :
    (∃ t, act (.port .h) constructing = .next t
        ∧ t.capacity ≠ constructing.capacity)
      ∧ ∃ t, act (.port .h) destroying = .next t ∧ t.capacity ≠ destroying.capacity :=
  ⟨⟨_, rfl, by decide⟩, _, rfl, by decide⟩

theorem witness_EachPointerHasItsOwnWriters :
    (∃ t, act (.port .c) (issue .c 0x70000001#32 [] three) = .next t ∧ t.head ≠ (issue .c 0x70000001#32 [] three).head)
      ∧ (∃ t, act (.port .p) (issue .p 0x60000001#32 [1] (ring 4 1 1 3 [(1, 0), (2, 0), (3, 0)])) = .next t
        ∧ t.tail ≠ 1)
      ∧ ∃ t, act (.port .p) (issue .p 0x60000001#32 [2] (ring 4 1 0 3 [(0, 0), (1, 0), (2, 0), (3, 0)])) = .next t
        ∧ ¬BytesKept (issue .p 0x60000001#32 [2] (ring 4 1 0 3 [(0, 0), (1, 0), (2, 0), (3, 0)])) t :=
  ⟨⟨_, rfl, by decide⟩, ⟨_, rfl, by decide⟩, _, rfl, fun h => absurd (h 0) (by decide)⟩

theorem witness_SessionFlagsHaveOneSource :
    (∃ t, act (.port .h) (issue .h 0xA0000000#32 [] six) = .next t ∧ six.producerDone = false ∧ t.producerDone = true)
      ∧ (∃ t, act (.port .c) (issue .c 0x90000001#32 [] (done empty4)) = .next t ∧ (done empty4).consumerExited = false
        ∧ t.consumerExited = true)
      ∧ ∃ t, act (.port .h) (issue .h 0x20000000#32 [] (done six)) = .next t ∧ (done six).producerDone = true
        ∧ t.producerDone = false :=
  ⟨⟨_, rfl, by decide⟩, ⟨_, rfl, by decide⟩, _, rfl, by decide⟩

theorem witness_SessionChangesExactlyAsTheTable :
    (Inv constructing ∧ ∃ t, act (.port .h) constructing = .next t
        ∧ session t = some .running)
      ∧ (Inv signalling ∧ ∃ t, act (.port .h) signalling = .next t
        ∧ session t = some .producerDone)
      ∧ (Inv consumeEnds ∧ ∃ t, act (.port .c) consumeEnds = .next t
        ∧ session t = some .terminated)
      ∧ Inv destroying ∧ ∃ t, act (.port .h) destroying = .next t
        ∧ session t = some .unconstructed :=
  ⟨⟨legal_construct, _, rfl, by decide⟩, ⟨legal_signal, _, rfl, by decide⟩, ⟨legal_consume_ends, _, rfl, by decide⟩,
    legal_destroy, _, rfl, by decide⟩

theorem witness_FirstFaultIsRecordedAndKept :
    (∃ t, act .reset { six with fault := true, faultCode := 6 } = .next t)
      ∧ (∃ t, act (.port .c) (issue .c 0x31000000#32 [] six) = .next t ∧ six.fault = false ∧ t.fault = true)
      ∧ (∃ t, act (.port .c) (issue .c 0x31000000#32 [] { six with fault := true, faultCode := 6 }) = .next t)
      ∧ (∃ t, act (.port .c) (issue .c 0x40000000#32 [] six) = .next t ∧ t.fault = false) ∧ FaultLegal six :=
  ⟨⟨_, rfl⟩, ⟨_, rfl, by decide⟩, ⟨_, rfl⟩, ⟨_, rfl, by decide⟩, by decide⟩

theorem witness_OtherPortsAreTouchedOnlyByAborting :
    (∃ t, act (.port .p) (issue .p 0x40000000#32 [] (pending .c 0x90000008#32 [] empty4)) = .next t) ∧ Port.c ≠ Port.p
      ∧ (∃ t, act (.port .h) abortOne = .next t
        ∧ t.pend.get .c = none) ∧ Port.c ≠ Port.h :=
  ⟨⟨_, rfl⟩, by decide, ⟨_, rfl, by decide⟩, by decide⟩

theorem witness_EveryResponseHasALegalShape :
    (∃ t, act (.port .c) (issue .c 0x70000002#32 [] three) = .next t
        ∧ Event.response ⟨0x00000002#32, [0xA1, 0xA2]⟩ ∈ newEvents .c (issue .c 0x70000002#32 [] three) t)
      ∧ ∃ t, act (.port .p) (issue .p 0x60000001#32 [1] full4) = .next t
        ∧ ∃ r, Event.response r ∈ newEvents .p (issue .p 0x60000001#32 [1] full4) t ∧ stField r.word = 1 :=
  ⟨⟨_, rfl, by decide⟩, _, rfl, _, List.mem_singleton.mpr rfl, by decide⟩

theorem witness_ObservationsOnlyGrow :
    ∃ t, act (.port .c) (issue .c 0x70000002#32 [] three) = .next t := ⟨_, rfl⟩

theorem witness_GuardsStayTrue :
    (three.constructed = true ∧ completeEnabled .c (issue .p 0x60000001#32 [1] (pending .c 0x90000001#32 [] three)) = true
        ∧ Turn.port .p ≠ .port .c ∧ Turn.port .p ≠ .reset
        ∧ ∃ t, act (.port .p) (issue .p 0x60000001#32 [1] (pending .c 0x90000001#32 [] three)) = .next t)
      ∧ completeEnabled .c (issue .h 0x20000000#32 [] (pending .c 0x90000001#32 [] three)) = true
        ∧ Turn.port .h ≠ .port .c ∧ Turn.port .h ≠ .reset
        ∧ ∃ t, act (.port .h) (issue .h 0x20000000#32 [] (pending .c 0x90000001#32 [] three)) = .next t
          ∧ t.pend.get .c = none :=
  ⟨⟨by decide, by decide, by decide, by decide, _, rfl⟩, by decide, by decide, by decide, _, rfl, by decide⟩

/-- A SIZE pending on P, and the same once it is answered: a run in which P always has the turn. -/
def fairRun (n : Nat) : State :=
  match n with
  | 0 => issue .p 0x40000000#32 [] six
  | _ + 1 => answered .p 0x00000006#32 [] (issue .p 0x40000000#32 [] six)

theorem witness_FairRunsAnswerEnabledCommands :
    IsRun (fun _ => .port .p) fairRun ∧ WeaklyFair (fun _ => .port .p) fairRun ∧ (∀ _ : Nat, Turn.port .p ≠ .reset)
      ∧ (fairRun 0).constructed = true ∧ completeEnabled .p (fairRun 0) = true := by
  refine ⟨fun n => ?_, fun q n h => ⟨n, Nat.le_refl n, ?_⟩, fun _ => by decide, by decide, by decide⟩
  · cases n <;> rfl
  · have := h (n + 1) (Nat.le_succ n)
    cases q with
    | p => rfl
    | c => exact absurd this (show ¬completeEnabled .c (fairRun 1) = true by decide)
    | h => exact absurd this (show ¬completeEnabled .h (fairRun 1) = true by decide)

theorem witness_OverlongProduceWaitsForShutdown :
    Inv overlong
      ∧ overlong.constructed = true
      ∧ overlong.producerDone = false
      ∧ overlong.pend.get .p
        = some ⟨0x80000005#32, [1, 2, 3, 4, 5]⟩
      ∧ decode 0x80000005#32 = .ok (.produce 5) ∧ empty4.capacity.toNat < (5 : Count).toNat
      ∧ ∃ t, act (.port .c) overlong = .next t :=
  ⟨legal_produce_overlong, by decide, by decide, by decide, by decide, by decide, _, rfl⟩

/-- A CONSUME that waits (R818), a PRODUCE beyond the capacity with a SIGNAL_PRODUCER_DONE queued behind it, which its agent cannot
issue (92_eei_decisions.md D12), and a CONSUME that waits while P's payload is withheld (R817). -/
theorem witness_StuckBlocksStayStuck :
    Stuck (pending .c 0x90000004#32 [] empty4)
      ∧ Stuck { pending .p 0x80000005#32 [1, 2, 3, 4, 5] empty4 with inbox := ⟨[0xA0000000#32], [], []⟩ }
      ∧ Stuck { pending .c 0x90000004#32 [] empty4 with inbox := ⟨[0x80000002#32], [], []⟩, wdata := [0x77] } :=
  ⟨⟨by decide, fun q => by cases q <;> decide⟩, ⟨by decide, fun q => by cases q <;> decide⟩,
    ⟨by decide, fun q => by cases q <;> decide⟩⟩

/-- The same CONSUME is not stuck once P's payload is whole (R211). -/
theorem test_payload_unsticks :
    ¬Stuck { pending .c 0x90000004#32 [] empty4 with inbox := ⟨[0x80000002#32], [], []⟩, wdata := [0x77, 0x78] } :=
  fun h => absurd (h.2 .p).1 (by decide)

theorem witness_EachTurnKeepsTheByteOrder :
    Inv writeTwo
      ∧ ∃ t, act (.port .p) writeTwo = .next t ∧ t.constructed = true
        ∧ storedBy writeTwo t = [0x01] :=
  ⟨legal_write_two, _, rfl, by decide, by decide⟩

theorem witness_DeliveredBytesArePrefixOfStoredBytes :
    Inv writeThenRead
      ∧ ∃ t, streams [.port .p, .port .c] writeThenRead
        = some ([0x77], [0xA1, 0xA2], t) :=
  ⟨legal_write_then_read, _, rfl⟩

theorem witness_EndOfDataComesAfterEveryByte :
    Inv consumeEnds
      ∧ streams [.port .h] consumeEnds = some ([], [], (serve .h consumeEnds))
      ∧ ∃ t, act (.port .c) (serve .h consumeEnds) = .next t ∧ EndsOfData (serve .h consumeEnds) t :=
  ⟨legal_consume_ends, rfl, _, rfl, 0x20FFFFFF#32, by decide, rfl⟩

theorem witness_UnspecifiedBytesAreNeverObserved :
    Inv stale
      ∧ Inv notStale
      ∧ contents notStale
        = contents stale
      ∧ ∃ t, runTurns [.port .c] stale = some t :=
  ⟨legal_stale, legal_not_stale, by decide, _, rfl⟩

end Sys2Proof.Tests
end

namespace Sys2Proof.Machine

/-- CONSTRUCT on H with no buffer passes every check of R401 when its capacity is in range, and opens a session. -/
theorem exec_construct_opens {cap : Count} {s : State} (hp : s.served = .h) (hc : s.constructed = false)
    (h1 : 1 ≤ cap.toNat) (hl : cap.toNat < s.params.capLimit) (hm : cap.toNat ≤ s.params.memBytes) :
    exec (.construct cap) s = .next (respond .ok cap [] (openSession cap s)) := by
  have h0 : cap ≠ 0#24 := by rintro rfl; simp at h1
  rw [exec, execConstruct, checked_of_pass (by simp [hp, portRights]) (by simp [needsBuffer]), if_neg (by simp [hc]),
    if_neg (by simp [h0, hl]), if_neg (Nat.not_lt.mpr hm)]

/-- A CONSTRUCT that makes a buffer where there was none has passed every check of R401. -/
theorem capacity_in_range_of_construct {cap : Count} {s t : State} (hc : s.constructed = false)
    (h : exec (.construct cap) s = .next t) (ht : t.constructed = true) :
    1 ≤ cap.toNat ∧ cap.toNat < s.params.capLimit ∧ cap.toNat ≤ s.params.memBytes := by
  cases exec_change h with
  | failsCheck _ => simp [hc] at ht
  | alreadyThere _ hc' => simp [hc] at hc'
  | replies _ _ _ _ _ => simp [hc] at ht
  | opens _ _ h0 hl hm =>
    have hpos : cap.toNat ≠ 0 := fun hz => h0 (BitVec.eq_of_toNat_eq hz)
    exact ⟨Nat.one_le_iff_ne_zero.mpr hpos, hl, hm⟩
  | stores hi _ _ _ _ _ => simp at hi
  | delivers hi _ _ _ _ _ => simp at hi

/-- Settles O16: the checks of R401 that a successful CONSTRUCT passes are the bounds of R17. -/
theorem largestConstructibleCapacity : Obligations.LargestConstructibleCapacity := by
  refine ⟨fun s cap _ hp hc => ⟨?_, ?_⟩, rfl⟩
  · rintro ⟨t, h, ht⟩
    obtain ⟨h1, hl, hm⟩ := capacity_in_range_of_construct hc h ht
    exact ⟨h1, le_min (Nat.le_sub_one_of_lt hl) hm⟩
  · rintro ⟨h1, hmin⟩
    obtain ⟨hl, hm⟩ := le_min_iff.mp hmin
    exact ⟨_, exec_construct_opens hp hc h1 (by omega) hm, rfl⟩

end Sys2Proof.Machine

namespace Sys2Proof.Machine

/-! ## What changes CAPACITY (10_state.md R102) -/

/-- Of all an operation can do, only opening and closing a session writes CAPACITY. -/
theorem Change.capacity_changed {s t : State} {i : Instr} (h : Change s i t) (hne : t.capacity ≠ s.capacity) :
    s.served = .h
      ∧ ((i = .construct t.capacity ∧ s.constructed = false ∧ t.constructed = true)
        ∨ (i = .destroy ∧ t.constructed = false ∧ t.capacity = 0#24)) := by
  cases h with
  | opens hp hc _ _ _ => exact ⟨hp, .inl ⟨rfl, hc, rfl⟩⟩
  | closes hp _ => exact ⟨hp, .inr ⟨rfl, rfl, rfl⟩⟩
  | failsCheck _ | alreadyThere _ _ => exact absurd (raise_capacity ..) hne
  | replies _ _ _ _ _ | stores _ _ _ _ _ _ | delivers _ _ _ _ _ _ | finishes _ _ _ _ | signals _ _
  | produceWaits _ _ _ _ | consumeWaits _ _ _ _ => exact absurd rfl hne

/-- Settles O38: of all turns only a CONSTRUCT that opens a session, a DESTROY and a reset write CAPACITY. -/
theorem capacityIsFixedInASession : Obligations.CapacityIsFixedInASession := by
  intro u s t h hne
  cases act_change h with
  | resets => exact .inr ⟨rfl, rfl, .inr rfl⟩
  | idles _ | accepts _ _ _ => exact absurd rfl hne
  | illegal _ _ => exact absurd (raise_capacity ..) hne
  | runs hs hd hc =>
    obtain ⟨rfl, ⟨rfl, hold, hnew⟩ | ⟨rfl, hnew, h0⟩⟩ := hc.capacity_changed hne
    · exact .inl ⟨hold, hnew, _, ⟨rfl, _, hs, hd⟩, rfl⟩
    · exact .inr ⟨hnew, h0, .inl ⟨rfl, _, hs, hd⟩⟩

/-! ## What a turn does to the fault record (10_state.md R113, R114) -/

/-- The step sends a response with this code on some port, and it is a fault code (60_exceptions.md R703). -/
def SendsFault (code : Code) (s t : State) : Prop :=
  ∃ q r, Event.response r ∈ newEvents q s t ∧ stField r.word = code ∧ code ∈ [0x5#4, 0x6#4, 0x7#4, 0x8#4]

/-- The two things a turn that is no reset can do to the fault record. -/
inductive FaultEffect (s t : State) : Prop where
  /-- No fault code is sent, and the record stays. -/
  | quiet (hf : t.fault = s.fault) (hc : t.faultCode = s.faultCode) (hn : ∀ code, ¬SendsFault code s t)
  /-- A fault code is sent, and it is recorded where none was. -/
  | raised {code : Code} (hf : t.fault = true) (hc : t.faultCode = if s.fault then s.faultCode else code)
      (hs : SendsFault code s t)

/-- The fault codes of R703 are the codes 5 to 8 of R308. -/
theorem statusCode_mem_faults_iff (st : Status) : statusCode st ∈ [0x5#4, 0x6#4, 0x7#4, 0x8#4] ↔ isFault st = true := by
  cases st <;> decide

/-- An answer that is no fault, from a state that has sent nothing yet and left the record alone. -/
theorem faultEffect_respond {st : Status} {val : Count} {data : List Byte} {s s₁ : State} (hst : isFault st = false)
    (hf : s₁.fault = s.fault) (hc : s₁.faultCode = s.faultCode) (ht : s₁.trace = s.trace) :
    FaultEffect s (respond st val data s₁) := by
  refine .quiet hf hc ?_
  rintro code ⟨q, r, hr, rfl, hmem⟩
  rw [newEvents_respond q st val data (congrArg (·.get q) ht)] at hr
  split at hr
  · obtain rfl : r = ⟨responseWord st val, data⟩ := by simpa using hr
    rw [stField_responseWord, statusCode_mem_faults_iff, hst] at hmem
    exact Bool.false_ne_true hmem
  · cases hr

/-- Taking an exception sends the fault's code on the served port and records it where none was (R703). -/
theorem faultEffect_raise {e : Status} (he : isFault e = true) (s : State) : FaultEffect s (raise e s) := by
  refine .raised (code := statusCode e) (by simp [he]) (by cases hs : s.fault <;> simp [he, hs]) ?_
  refine ⟨s.served, ⟨responseWord e 0#24, []⟩, ?_, stField_responseWord .., (statusCode_mem_faults_iff e).mpr he⟩
  rw [raise, newEvents_respond _ _ _ _ (by simp)]
  simp

/-- A turn that sends nothing and leaves the record alone. -/
theorem faultEffect_of_no_response {s t : State} (hf : t.fault = s.fault) (hc : t.faultCode = s.faultCode)
    (hn : ∀ q r, Event.response r ∉ newEvents q s t) : FaultEffect s t :=
  .quiet hf hc fun _ ⟨q, r, hr, _⟩ => hn q r hr

theorem serve_eq_self {q : Port} {s : State} (h : s.served = q) : serve q s = s := by
  subst h; rfl

/-- The aborts of DESTROY raise FAULT where a PRODUCE or CONSUME is pending on P or C (R408). -/
theorem abort_both_fault (s : State) :
    (abort .c (abort .p s)).fault = (holdsBlocking (s.pend.get .p) || holdsBlocking (s.pend.get .c) || s.fault) := by
  simp [abort_pend, Bool.or_left_comm, Bool.or_assoc]

/-- The aborts of DESTROY record ABORTED where none was recorded and a PRODUCE or CONSUME is pending on P or C (R408). -/
theorem abort_both_faultCode (s : State) :
    (abort .c (abort .p s)).faultCode
      = if (holdsBlocking (s.pend.get .p) || holdsBlocking (s.pend.get .c)) && !s.fault then 0x8#4 else s.faultCode := by
  cases hp : holdsBlocking (s.pend.get .p) <;> cases hs : s.fault <;> simp [abort_pend, hp, hs]

/-- DESTROY sends and records ABORTED exactly where it aborts a command (R408). -/
theorem faultEffect_destroy {s : State} (hp : s.served = .h) :
    FaultEffect s (respond .ok 0#24 [] (closeSession (abort .c (abort .p s)))) := by
  have hev := fun r => newEvents_destroy r s
  rw [serve_eq_self hp] at hev
  have hfault := abort_both_fault s
  have hcode := abort_both_faultCode s
  cases hb : holdsBlocking (s.pend.get .p) || holdsBlocking (s.pend.get .c) <;> simp only [hb] at hfault hcode
  case false =>
    obtain ⟨hbp, hbc⟩ := Bool.or_eq_false_iff.mp hb
    refine .quiet hfault hcode ?_
    rintro code ⟨q, r, hr, rfl, hmem⟩
    obtain rfl : r = ⟨0#32, []⟩ := by
      rw [hev] at hr
      split at hr
      · next hq => simpa using hr
      · next hq => cases q <;> simp [hbp, hbc] at hq hr
    exact absurd hmem (by decide)
  case true =>
    have hrecord : (abort .c (abort .p s)).faultCode = if s.fault then s.faultCode else 0x8#4 := by
      rw [hcode]; cases s.fault <;> rfl
    obtain ⟨q, hq, hbq⟩ : ∃ q, q ≠ .h ∧ holdsBlocking (s.pend.get q) = true := by
      rcases Bool.or_eq_true_iff.mp hb with h | h
      · exact ⟨.p, by decide, h⟩
      · exact ⟨.c, by decide, h⟩
    refine .raised hfault hrecord ⟨q, ⟨0x80000000#32, []⟩, ?_, by decide, by decide⟩
    rw [hev, if_neg hq, if_pos hbq]
    exact List.mem_singleton.mpr rfl

/-- Every operation raises a fault through `raise` or by aborting, or leaves the record alone. -/
theorem Change.faultEffect {s t : State} {i : Instr} (h : Change s i t) : FaultEffect s t := by
  cases h with
  | failsCheck hk => exact faultEffect_raise (isFault_of_commonCheck hk) s
  | alreadyThere _ _ => exact faultEffect_raise rfl s
  | closes hp _ => exact faultEffect_destroy hp
  | replies _ hst _ _ _ => exact faultEffect_respond hst rfl rfl rfl
  | opens _ _ _ _ _ | stores _ _ _ _ _ _ | delivers _ _ _ _ _ _ | finishes _ _ _ _ | signals _ _ =>
    exact faultEffect_respond rfl rfl rfl rfl
  | produceWaits _ _ _ _ | consumeWaits _ _ _ _ =>
    exact faultEffect_of_no_response rfl rfl (by simp [newEvents])

/-- Accepting a command adds the command to the observation, and no response (20_memory.md R211, R224). -/
theorem not_response_of_accepted {q q' : Port} {w : Word} {rest : List Word} {s : State} {r : Response} :
    Event.response r ∉ newEvents q' s (accepted q w rest s) := by
  by_cases hq : q' = q
  · subst hq; rw [newEvents_append (PerPort_get_set_same ..)]; simp
  · rw [newEvents_self (PerPort_get_set_other _ _ hq)]; simp

/-- Marking a port as served changes neither the fault record nor what has been sent. -/
theorem faultEffect_serve {q : Port} {s t : State} : FaultEffect (serve q s) t → FaultEffect s t
  | .quiet hf hc hn => .quiet hf hc hn
  | .raised hf hc hs => .raised hf hc hs

theorem act_faultEffect {u : Turn} {s t : State} (h : act u s = .next t) (hu : u ≠ .reset) : FaultEffect s t := by
  cases act_change h with
  | resets => exact absurd rfl hu
  | idles _ => exact faultEffect_of_no_response rfl rfl (by simp [newEvents])
  | accepts _ _ _ => exact faultEffect_serve (faultEffect_of_no_response rfl rfl fun _ _ => not_response_of_accepted)
  | illegal _ _ => exact faultEffect_serve (faultEffect_raise rfl _)
  | runs _ _ hc => exact faultEffect_serve hc.faultEffect

theorem FaultEffect.faultLegal {s t : State} (h : FaultEffect s t) (hl : FaultLegal s) : FaultLegal t := by
  cases h with
  | quiet hf hc _ => simpa only [FaultLegal, hf, hc] using hl
  | raised hf hc hs =>
    obtain ⟨_, _, _, _, hmem⟩ := hs
    cases h0 : s.fault
    · simpa [FaultLegal, hf, hc, h0] using hmem
    · simpa [FaultLegal, hf, hc, h0] using hl

/-- Settles O42: a turn either sends no fault code and leaves the record, or sends one and records it where none was. -/
theorem firstFaultIsRecordedAndKept : Obligations.FirstFaultIsRecordedAndKept := by
  intro u s t h
  refine ⟨?_, fun hu => ?_⟩
  · rintro rfl
    cases h
    exact ⟨rfl, rfl⟩
  · have he := act_faultEffect h hu
    have hlegal := he.faultLegal
    cases he with
    | quiet hf hc hn =>
      exact ⟨⟨fun ht => .inl (hf ▸ ht), fun ht => ht.elim (hf ▸ ·) fun ⟨code, hs⟩ => absurd hs (hn code)⟩,
        fun _ => hc, fun hs ht => absurd (hf ▸ ht) (by simp [hs]), fun _ => hc, hlegal⟩
    | raised hf hc hs =>
      exact ⟨⟨fun _ => .inr ⟨_, hs⟩, fun _ => hf⟩, fun h1 => by rw [hc, if_pos h1],
        fun h0 _ => by rw [hc, if_neg (by simp [h0])]; exact hs, fun h0 => absurd hf (by simp [h0]), hlegal⟩

end Sys2Proof.Machine

namespace Sys2Proof.Machine

/-! ## The opcode map (30_encoding.md R303 to R306) -/

theorem reservedOp_iff (op : Code) : reservedOp op = true ↔ op.toNat = 0 ∨ op.toNat = 14 ∨ op.toNat = 15 := by
  revert op
  decide

/-- The opcode map has no row for a reserved opcode (R304). -/
theorem decodeOp_of_reserved {op : Code} (h : reservedOp op = true) (n : Count) :
    decodeOp op n = .error .reservedOpcode := by
  rcases (reservedOp_iff op).mp h with h | h | h <;> simp only [decodeOp, h]

/-- The opcodes of the operations that take no operand (R306). -/
abbrev noOperandOps : List Nat := [2, 3, 4, 5, 10, 11, 12, 13]

/-- A row of the opcode map either checks that its operand is zero or takes every operand, and its operation has that opcode
and that operand. -/
theorem decodeOp_row {op : Code} (h : reservedOp op = false) :
    (op.toNat ∈ noOperandOps ∧ ∃ i, encode i = commandWord op 0#24 ∧ ∀ n, decodeOp op n = noOperand i n)
      ∨ (op.toNat ∉ noOperandOps ∧ ∀ n, ∃ i, encode i = commandWord op n ∧ decodeOp op n = .ok i) := by
  rcases code_cases op with rfl | rfl | rfl | rfl | rfl | rfl | rfl | rfl | rfl | rfl | rfl | rfl | rfl | rfl | rfl | rfl
  · cases h
  · exact .inr ⟨by decide, fun n => ⟨.construct n, rfl, rfl⟩⟩
  · exact .inl ⟨by decide, .destroy, rfl, fun _ => rfl⟩
  · exact .inl ⟨by decide, .capacity, rfl, fun _ => rfl⟩
  · exact .inl ⟨by decide, .size, rfl, fun _ => rfl⟩
  · exact .inl ⟨by decide, .avail, rfl, fun _ => rfl⟩
  · exact .inr ⟨by decide, fun n => ⟨.write n, rfl, rfl⟩⟩
  · exact .inr ⟨by decide, fun n => ⟨.read n, rfl, rfl⟩⟩
  · exact .inr ⟨by decide, fun n => ⟨.produce n, rfl, rfl⟩⟩
  · exact .inr ⟨by decide, fun n => ⟨.consume n, rfl, rfl⟩⟩
  · exact .inl ⟨by decide, .signalProducerDone, rfl, fun _ => rfl⟩
  · exact .inl ⟨by decide, .status, rfl, fun _ => rfl⟩
  · exact .inl ⟨by decide, .head, rfl, fun _ => rfl⟩
  · exact .inl ⟨by decide, .tail, rfl, fun _ => rfl⟩
  · cases h
  · cases h

/-- A command word has its operand read by its opcode's row (R301, R303). -/
theorem decode_commandWord (op : Code) (n : Count) : decode (commandWord op n) = decodeOp op n := by
  cases h : reservedOp op with
  | true => simp [decode, h, decodeOp_of_reserved h]
  | false => simp [decode, h]

/-- The same by the word's numbers. -/
theorem decode_ofNat {op : Nat} (n : Count) (h : op < 16) :
    decode (BitVec.ofNat 32 (op * 2 ^ 28 + n.toNat)) = decodeOp (BitVec.ofNat 4 op) n := by
  rw [ofNat_eq_commandWord n h, decode_commandWord]

theorem decode_ofNat_bare {op : Nat} (h : op < 16) :
    decode (BitVec.ofNat 32 (op * 2 ^ 28)) = decodeOp (BitVec.ofNat 4 op) 0#24 := by
  rw [← decode_ofNat 0#24 h, BitVec.toNat_zero, Nat.add_zero]

theorem rsvField_eq_zero_iff (w : Word) : rsvField w = 0#4 ↔ w.toNat / 2 ^ 24 % 16 = 0 := by
  rw [BitVec.toNat_eq, rsvField_toNat]
  rfl

theorem opndField_eq_zero_iff (w : Word) : opndField w = 0#24 ↔ w.toNat % 2 ^ 24 = 0 := by
  rw [BitVec.toNat_eq, opndField_toNat]
  rfl

/-! ## What the format decoder answers (30_encoding.md R316) -/

/-- The word's opcode is reserved (R304). -/
abbrev OpcodeReserved (w : Word) : Prop := w.toNat / 2 ^ 28 = 0 ∨ w.toNat / 2 ^ 28 = 14 ∨ w.toNat / 2 ^ 28 = 15

/-- The decoder's four answers on a word, each with the checks passed and failed before it, by the word's numbers. -/
inductive Decoded (w : Word) : Except DecodeError Instr → Prop where
  | reservedOpcode (hop : OpcodeReserved w) : Decoded w (.error .reservedOpcode)
  | reservedBits (hop : ¬OpcodeReserved w) (hrsv : w.toNat / 2 ^ 24 % 16 ≠ 0) : Decoded w (.error .reservedBits)
  | operandNotZero (hop : ¬OpcodeReserved w) (hrsv : w.toNat / 2 ^ 24 % 16 = 0)
      (hno : w.toNat / 2 ^ 28 ∈ noOperandOps) (hn : w.toNat % 2 ^ 24 ≠ 0) : Decoded w (.error .operandNotZero)
  | legal {i : Instr} (hop : ¬OpcodeReserved w) (hrsv : w.toNat / 2 ^ 24 % 16 = 0)
      (hno : w.toNat / 2 ^ 28 ∈ noOperandOps → w.toNat % 2 ^ 24 = 0) (henc : encode i = w) : Decoded w (.ok i)

/-- The answer of a word that passes the first two checks is its opcode's row (R303, R306). -/
theorem decodeOp_decoded {w : Word} (hres : reservedOp (opField w) = false) (hop : ¬OpcodeReserved w)
    (hrsv : rsvField w = 0#4) : Decoded w (decodeOp (opField w) (opndField w)) := by
  have hbits := (rsvField_eq_zero_iff w).mp hrsv
  have hword := commandWord_of_fields hrsv
  have hrow := decodeOp_row hres
  rw [opField_toNat] at hrow
  rcases hrow with ⟨hno, i, henc, hrow⟩ | ⟨hno, hrow⟩
  · rw [hrow]
    by_cases hn : opndField w = 0#24
    · rw [hn] at hword ⊢
      exact .legal hop hbits (fun _ => (opndField_eq_zero_iff w).mp hn) (henc.trans hword)
    · rw [noOperand_of_ne i hn]
      exact .operandNotZero hop hbits hno (mt (opndField_eq_zero_iff w).mpr hn)
  · obtain ⟨i, henc, hi⟩ := hrow (opndField w)
    rw [hi]
    exact .legal hop hbits (absurd · hno) (henc.trans hword)

theorem decode_decoded (w : Word) : Decoded w (decode w) := by
  have hreserved := reservedOp_iff (opField w)
  rw [opField_toNat] at hreserved
  unfold decode
  split
  case isTrue hres => exact .reservedOpcode (hreserved.mp hres)
  case isFalse hres =>
    have hop := mt hreserved.mpr hres
    split
    case isTrue hrsv => exact .reservedBits hop (mt (rsvField_eq_zero_iff w).mpr hrsv)
    case isFalse hrsv => exact decodeOp_decoded (Bool.eq_false_of_not_eq_true hres) hop (not_not.mp hrsv)

/-- Settles O1: each answer of the decoder comes with the checks that passed before it, and a legal word is its operation's own. -/
theorem decoderRejectsExactlyTheIllegalWords : Obligations.DecoderRejectsExactlyTheIllegalWords := by
  intro w op rsv opnd reserved
  have h := decode_decoded w
  generalize decode w = d at h
  cases h with
  | reservedOpcode hop => simp [show reserved from hop]
  | reservedBits hop hrsv => simp [show ¬reserved from hop, show rsv ≠ 0 from hrsv]
  | operandNotZero hop hrsv hno hn =>
    simp [-List.mem_cons, show ¬reserved from hop, show rsv = 0 from hrsv, show op ∈ [2, 3, 4, 5, 10, 11, 12, 13] from hno,
      show opnd ≠ 0 from hn]
  | legal hop hrsv hno henc =>
    have hno : op ∈ [2, 3, 4, 5, 10, 11, 12, 13] → opnd = 0 := hno
    simpa [-List.mem_cons, show ¬reserved from hop, show rsv = 0 from hrsv, henc, op, opnd] using hno

/-! ## Transactions -/

theorem payloadLen_of_legal {w : Word} {i : Instr} (h : decode w = .ok i) (q : Port) : payloadLen q w = payloadOf q i := by
  simp only [payloadLen, h]

theorem payloadLen_of_illegal {w : Word} {e : DecodeError} (h : decode w = .error e) (q : Port) : payloadLen q w = 0 := by
  simp only [payloadLen, h]

/-- C and H have no payload channel (R309, R312). -/
theorem payloadOf_of_ne_p {q : Port} (h : q ≠ .p) (i : Instr) : payloadOf q i = 0 := by
  cases q with
  | p => exact absurd rfl h
  | c | h => cases i <;> rfl

/-- The columns of an operation's row of the opcode map, at a word that decodes to it (R303). -/
theorem opcodeMap_row {w : Word} {i : Instr} {name : String} {ports : List Port} {payload : Nat} (hd : decode w = .ok i)
    (hname : mnemonic i = name) (hports : portRights i = ports) (hpayload : payloadOf .p i = payload) :
    decode w = .ok i ∧ mnemonic i = name ∧ portRights i = ports ∧ payloadLen .p w = payload
      ∧ payloadLen .c w = 0 ∧ payloadLen .h w = 0 := by
  refine ⟨hd, hname, hports, (payloadLen_of_legal hd .p).trans hpayload, ?_, ?_⟩
  · exact (payloadLen_of_legal hd .c).trans (payloadOf_of_ne_p (by decide) i)
  · exact (payloadLen_of_legal hd .h).trans (payloadOf_of_ne_p (by decide) i)

/-- Settles O2: each opcode's row of `decodeOp` names the operation, and the operation the other columns. -/
theorem opcodeMapSelectsOperationsByNumber : Obligations.OpcodeMapSelectsOperationsByNumber := by
  intro n word bare row
  have hword : ∀ op < 16, decode (word op) = decodeOp (BitVec.ofNat 4 op) n := fun _ => decode_ofNat n
  have hbare : ∀ op < 16, decode (bare op) = decodeOp (BitVec.ofNat 4 op) 0#24 := fun _ => decode_ofNat_bare
  exact ⟨opcodeMap_row (hword 1 (by decide)) rfl rfl rfl,
    opcodeMap_row (hbare 2 (by decide)) rfl rfl rfl,
    opcodeMap_row (hbare 3 (by decide)) rfl rfl rfl,
    opcodeMap_row (hbare 4 (by decide)) rfl rfl rfl,
    opcodeMap_row (hbare 5 (by decide)) rfl rfl rfl,
    opcodeMap_row (hword 6 (by decide)) rfl rfl rfl,
    opcodeMap_row (hword 7 (by decide)) rfl rfl rfl,
    opcodeMap_row (hword 8 (by decide)) rfl rfl rfl,
    opcodeMap_row (hword 9 (by decide)) rfl rfl rfl,
    opcodeMap_row (hbare 10 (by decide)) rfl rfl rfl,
    opcodeMap_row (hbare 11 (by decide)) rfl rfl rfl,
    opcodeMap_row (hbare 12 (by decide)) rfl rfl rfl,
    opcodeMap_row (hbare 13 (by decide)) rfl rfl rfl,
    hword 0 (by decide), hword 14 (by decide), hword 15 (by decide)⟩

/-! ## Illegal words (30_encoding.md R304 to R306) -/

/-- A word that breaks one of the three checks is illegal, whatever the others say. -/
theorem decode_illegal {w : Word}
    (h : OpcodeReserved w ∨ w.toNat / 2 ^ 24 % 16 ≠ 0 ∨ (w.toNat / 2 ^ 28 ∈ noOperandOps ∧ w.toNat % 2 ^ 24 ≠ 0)) :
    ∃ e, decode w = .error e := by
  have hd := decode_decoded w
  generalize decode w = d at hd
  cases hd with
  | reservedOpcode _ | reservedBits _ _ | operandNotZero _ _ _ _ => exact ⟨_, rfl⟩
  | legal hop hrsv hno _ =>
    rcases h with h | h | ⟨hmem, h⟩
    · exact absurd h hop
    · exact absurd hrsv h
    · exact absurd (hno hmem) h

/-- Settles O9: an illegal word has no payload and never waits, and its turn raises ILLEGAL_COMMAND, whose code is 7. -/
theorem illegalWordsAreAnsweredIllegalCommand : Obligations.IllegalWordsAreAnsweredIllegalCommand := by
  intro w h
  have hreserved : w.toNat / 2 ^ 28 ∈ [0, 14, 15] → OpcodeReserved w := by simp [OpcodeReserved]
  obtain ⟨e, he⟩ := decode_illegal (h.imp_left hreserved)
  refine ⟨payloadLen_of_illegal he, fun s q bytes hs => ⟨completeEnabled_of_illegal hs he, ?_⟩⟩
  rw [act_of_illegal hs he, raise_eq_answered rfl]
  rfl

end Sys2Proof.Machine

namespace Sys2Proof.Machine

/-! ## Operations that fail a common check, and words without an operand (60_exceptions.md R702, 30_encoding.md R306) -/

/-- An operation that fails a common check raises the fault and does nothing else. -/
theorem exec_of_fail {i : Instr} {s : State} {e : Status} (h : commonCheck s.served i s = some e) :
    exec i s = .next (raise e s) := by
  obtain ⟨body, hbody⟩ := exec_checks_first i s
  rw [hbody, checked_of_fail h]

theorem illegalOffPorts (i : Instr) : IllegalOffPorts i (portRights i) := by
  intro s hp
  have hk : commonCheck s.served i s = some .illegalCommand := if_pos hp
  rw [exec_of_fail hk, raise_eq_answered rfl]
  rfl

theorem noBufferOnPorts {i : Instr} (hb : needsBuffer i = true) : NoBufferOnPorts i (portRights i) := by
  intro s hp hc
  have hk : commonCheck s.served i s = some .noBuffer := by simp [commonCheck, hp, hb, hc]
  rw [exec_of_fail hk, raise_eq_answered rfl]
  rfl

/-- An opcode whose row of the opcode map checks the operand has one legal word. -/
theorem takesNoOperand {op : Nat} {i : Instr} (hop : op < 16)
    (hrow : ∀ n, decodeOp (BitVec.ofNat 4 op) n = noOperand i n) : TakesNoOperand op i := by
  refine ⟨(decode_ofNat_bare hop).trans (hrow 0#24), fun n hn => ?_⟩
  rw [decode_ofNat n hop, hrow, noOperand_of_ne i (mt toNat_eq_zero_iff.mpr hn)]

/-! ## CONSTRUCT (40_ringbuffer.md R401) -/

theorem exec_construct_of_buffer {cap : Count} {s : State} (hp : s.served = .h) (hc : s.constructed = true) :
    exec (.construct cap) s = .next (raise .alreadyConstructed s) := by
  rw [exec, execConstruct, checked_of_pass (by simp [hp, portRights]) (by simp [needsBuffer]), if_pos hc]

theorem exec_construct_of_invalid {cap : Count} {s : State} (hp : s.served = .h) (hc : s.constructed = false)
    (hcap : cap.toNat = 0 ∨ s.params.capLimit ≤ cap.toNat) :
    exec (.construct cap) s = .next (respond .invalidArgument 0#24 [] s) := by
  rw [exec, execConstruct, checked_of_pass (by simp [hp, portRights]) (by simp [needsBuffer]), if_neg (by simp [hc]),
    if_pos (hcap.imp_left toNat_eq_zero_iff.mp)]

theorem exec_construct_of_too_large {cap : Count} {s : State} (hp : s.served = .h) (hc : s.constructed = false)
    (h1 : 1 ≤ cap.toNat) (hl : cap.toNat < s.params.capLimit) (hm : s.params.memBytes < cap.toNat) :
    exec (.construct cap) s = .next (respond .outOfMemory 0#24 [] s) := by
  have hcap : ¬(cap = 0#24 ∨ s.params.capLimit ≤ cap.toNat) := by rw [← toNat_eq_zero_iff]; omega
  rw [exec, execConstruct, checked_of_pass (by simp [hp, portRights]) (by simp [needsBuffer]), if_neg (by simp [hc]),
    if_neg hcap, if_pos hm]

/-- Settles O15: each branch of R401's checks answers its own status, and the last one opens an empty session. -/
theorem constructOpensASessionOrFailsInOrder : Obligations.ConstructOpensASessionOrFailsInOrder := by
  refine ⟨fun cap => ⟨decode_ofNat (op := 1) cap (by decide), illegalOffPorts _, fun _ _ => rfl⟩, fun s cap hp =>
    ⟨fun hc => ?_, fun hc hcap => ?_, fun hc h1 hl hm => ?_, fun hc h1 hl hm => ?_⟩⟩
  · rw [exec_construct_of_buffer hp hc, raise_eq_answered rfl, hp]
    rfl
  · rw [exec_construct_of_invalid hp hc hcap, respond_eq_answered, hp]
    rfl
  · rw [exec_construct_of_too_large hp hc h1 hl hm, respond_eq_answered, hp]
    rfl
  · have hne : 0#24 ≠ cap := by rintro rfl; simp at h1
    refine ⟨_, exec_construct_opens hp hc h1 hl hm, ?_, rfl, rfl, ?_⟩
    · rw [respond_eq_answered, show (openSession cap s).served = .h from hp]
      rfl
    · simp [fullFlag, hne]

/-! ## The counts (40_ringbuffer.md R402, R403, R404) -/

theorem exec_capacity_of_buffer {s : State} (hc : s.constructed = true) :
    exec .capacity s = .next (respond .ok s.capacity [] s) := by
  rw [exec, execCapacity, checked_of_pass (by cases s.served <;> decide) fun _ => hc]

theorem exec_size_of_buffer {s : State} (hc : s.constructed = true) :
    exec .size s = .next (respond .ok s.size [] s) := by
  rw [exec, execSize, checked_of_pass (by cases s.served <;> decide) fun _ => hc]

theorem exec_avail_of_buffer {s : State} (hc : s.constructed = true) :
    exec .avail s = .next (respond .ok (BitVec.ofNat 24 (avail s)) [] s) := by
  rw [exec, execAvail, checked_of_pass (by cases s.served <;> decide) fun _ => hc]

/-- AVAIL is at most CAPACITY, so it is a count (10_state.md R106). -/
theorem avail_lt (s : State) : avail s < 16777216 :=
  Nat.lt_of_le_of_lt (Nat.sub_le ..) s.capacity.isLt

/-- Settles O18: each count passes the common checks on every port with a buffer and answers its field. -/
theorem countQueriesAnswer : Obligations.CountQueriesAnswer := by
  refine ⟨⟨?_, ?_, ?_⟩, ⟨fun _ _ => rfl, fun _ _ => rfl, fun _ _ => rfl⟩, fun s hc _ => ⟨?_, ?_, ?_⟩,
    noBufferOnPorts rfl, noBufferOnPorts rfl, noBufferOnPorts rfl⟩
  · exact takesNoOperand (by decide) fun _ => rfl
  · exact takesNoOperand (by decide) fun _ => rfl
  · exact takesNoOperand (by decide) fun _ => rfl
  · rw [exec_capacity_of_buffer hc, respond_eq_answered]
    rfl
  · rw [exec_size_of_buffer hc, respond_eq_answered]
    rfl
  · rw [exec_avail_of_buffer hc, respond_eq_answered, toNat_ofNat24 (avail_lt s)]
    rfl

/-! ## Storing at the tail (40_ringbuffer.md R405, R406) -/

theorem Inv.tail_lt {s : State} (h : Inv s) (hc : s.constructed = true) : s.tail.toNat < s.capacity.toNat := by
  obtain ⟨hpos, -, -, -, -, htail⟩ := h.ring hc
  rw [htail]
  exact Nat.mod_lt _ hpos

/-- The ring copy of the first `n` bytes puts them at the tail and touches nothing else. -/
theorem storesAtTail_ringStore {s : State} {n : Nat} {bytes : List Byte} (ht : s.tail.toNat < s.capacity.toNat)
    (hn : n ≤ s.capacity.toNat) (hl : n ≤ bytes.length) :
    StoresAtTail n bytes s (ringStore s.capacity.toNat s.tail.toNat (bytes.take n) s.storage) := by
  have hlen : (bytes.take n).length = n := List.length_take_of_le hl
  refine ⟨fun i hi => ?_, fun a ha => ?_⟩
  · rw [ringStore_lookup_stored _ ht (by omega) (by omega), List.getElem?_take_of_lt hi]
  · exact ringStore_lookup_other _ ht (by omega) fun i hi => ha i (by omega)

theorem respond_putBytes_eq_storedAndAnswered {s : State} {n : Nat} (hp : s.served = .p)
    (ht : s.tail.toNat < s.capacity.toNat) (hn : n ≤ s.capacity.toNat) :
    respond .ok (BitVec.ofNat 24 n) [] (putBytes n s) = storedAndAnswered n s (putBytes n s).storage := by
  have hcap : s.capacity.toNat < 16777216 := s.capacity.isLt
  rw [respond_eq_answered, toNat_ofNat24 (by omega), putBytes_served, hp]
  unfold putBytes storedAndAnswered
  rw [newOffset_eq_mod ht hn]
  rfl

/-- A store that fits is made, at the tail, with its count as the answer. -/
theorem storeServed_eq_storedAndAnswered {s : State} {n : Nat} {cmd : Command} (h : Inv s) (hc : s.constructed = true)
    (hp : s.served = .p) (hs : s.pend.get .p = some cmd) (h1 : 1 ≤ n) (ha : n ≤ avail s) (hl : n ≤ cmd.payload.length) :
    ∃ st, storeServed n s = .next (storedAndAnswered n s st) ∧ StoresAtTail n cmd.payload s st := by
  have hpay : servedPayload s = cmd.payload := servedPayload_of_pend (hp ▸ hs)
  have ht := h.tail_lt hc
  have hn : n ≤ s.capacity.toNat := Nat.le_trans ha (Nat.sub_le ..)
  obtain ⟨t, hstore⟩ := storeServed_next h hc h1 ha (hpay ▸ hl)
  obtain ⟨-, rfl⟩ := storeServed_eq_next.mp hstore
  rw [respond_putBytes_eq_storedAndAnswered hp ht hn] at hstore
  refine ⟨_, hstore, ?_⟩
  rw [putBytes_storage, hpay]
  exact storesAtTail_ringStore ht hn hl

theorem size_storedAndAnswered {s : State} {n : Nat} (ha : n ≤ avail s) (hsize : s.size.toNat ≤ s.capacity.toNat)
    (st : Memory) : (storedAndAnswered n s st).size.toNat = s.size.toNat + n := by
  have hcap : s.capacity.toNat < 16777216 := s.capacity.isLt
  unfold avail at ha
  exact toNat_ofNat24 (by omega)

/-- EMPTY and FULL of a buffer by their counts (10_state.md R118). -/
theorem emptyFlag_iff {s : State} (hc : s.constructed = true) : emptyFlag s = true ↔ s.size.toNat = 0 := by
  simp [emptyFlag, hc, toNat_eq_zero_iff]

@[inherit_doc emptyFlag_iff]
theorem fullFlag_iff {s : State} (hc : s.constructed = true) :
    fullFlag s = true ↔ s.size.toNat = s.capacity.toNat := by
  simp [fullFlag, hc, BitVec.toNat_inj]

/-! ## WRITE (40_ringbuffer.md R406) -/

theorem exec_write_of_pass {s : State} {len : Count} (hp : s.served = .p) (hc : s.constructed = true) :
    exec (.write len) s = writeBody len s := by
  rw [exec, execWrite, checked_of_pass (by simp [hp, portRights]) fun _ => hc]

theorem writeBody_of_zero {s : State} {len : Count} (h0 : len.toNat = 0) :
    writeBody len s = .next (answered s.served 0x00000000#32 [] s) := by
  rw [writeBody, if_pos (toNat_eq_zero_iff.mp h0), respond_eq_answered]
  rfl

theorem writeBody_of_full {s : State} {len : Count} (h0 : len.toNat ≠ 0) (ha : avail s = 0) :
    ∃ w, IsReply w 1 0xFFFFFF ∧ writeBody len s = .next (answered s.served w [] s) := by
  refine ⟨responseWord .outOfSpace sentinel, by decide, ?_⟩
  rw [writeBody, if_neg (mt toNat_eq_zero_iff.mpr h0), if_pos ha]
  rfl

theorem writeBody_of_room {s : State} {len : Count} (h0 : len.toNat ≠ 0) (ha : avail s ≠ 0) :
    writeBody len s = storeServed (min len.toNat (avail s)) s := by
  rw [writeBody, if_neg (mt toNat_eq_zero_iff.mpr h0), if_neg ha]

/-- Settles O21: the three branches of WRITE's own rule, the last a store of what fits. -/
theorem writeStoresWhatFits : Obligations.WriteStoresWhatFits := by
  refine ⟨fun len => ⟨decode_ofNat (op := 6) len (by decide), illegalOffPorts _, noBufferOnPorts rfl, fun _ _ => rfl⟩, ?_⟩
  intro s len cmd h hc hp hs hd room
  have hexec := exec_write_of_pass (len := len) hp hc
  refine ⟨fun h0 => ?_, fun h0 ha => ?_, fun h0 ha => ?_⟩
  · rw [hexec, writeBody_of_zero h0, hp]
  · obtain ⟨w, hw, hbody⟩ := writeBody_of_full h0 ha
    exact ⟨w, hw, hexec.trans (hp ▸ hbody)⟩
  · intro n
    have hpos : 1 ≤ n := Nat.one_le_iff_ne_zero.mpr (by omega)
    have hroom : n ≤ avail s := Nat.min_le_right ..
    have hlen : cmd.payload.length = len.toNat := decode_payload h hs hd
    obtain ⟨st, hstore, hst⟩ := storeServed_eq_storedAndAnswered h hc hp hs hpos hroom (by omega)
    obtain ⟨-, -, -, hsize, -, -⟩ := h.ring hc
    have hnew := size_storedAndAnswered hroom hsize st
    have hcap : (storedAndAnswered n s st).capacity = s.capacity := rfl
    have hcon : (storedAndAnswered n s st).constructed = true := hc
    refine ⟨st, hexec.trans ((writeBody_of_room h0 ha).trans hstore), hst, ?_, ?_⟩
    · rw [Bool.eq_false_iff, Ne, emptyFlag_iff hcon]
      omega
    · rw [fullFlag_iff hcon, hnew, hcap]
      omega

/-! ## READ (40_ringbuffer.md R407) -/

theorem exec_read_of_pass {s : State} {len : Count} (hp : s.served = .c) (hc : s.constructed = true) :
    exec (.read len) s = readBody len s := by
  rw [exec, execRead, checked_of_pass (by simp [hp, portRights]) fun _ => hc]

theorem readBody_of_nothing {s : State} {len : Count} (h0 : len.toNat = 0 ∨ s.size.toNat = 0) :
    readBody len s = .next (answered s.served 0x00000000#32 [] s) := by
  rw [readBody, if_pos (h0.imp toNat_eq_zero_iff.mp toNat_eq_zero_iff.mp), respond_eq_answered]
  rfl

theorem readBody_of_some {s : State} {len : Count} (h0 : len.toNat ≠ 0) (hs : s.size.toNat ≠ 0) :
    readBody len s = deliverServed (min len.toNat s.size.toNat) s := by
  rw [readBody, if_neg]
  rw [← toNat_eq_zero_iff, ← toNat_eq_zero_iff]
  omega

/-- A delivery of bytes that are held is made, oldest first, with its count as the answer. -/
theorem deliverServed_eq_deliveredAndAnswered {s : State} {n : Nat} (h : Inv s) (hc : s.constructed = true)
    (hp : s.served = .c) (h1 : 1 ≤ n) (hn : n ≤ s.size.toNat) :
    deliverServed n s = .next (deliveredAndAnswered n s) := by
  obtain ⟨t, hload⟩ := deliverServed_next h hc h1 hn
  obtain ⟨hreq, rfl⟩ := deliverServed_eq_next.mp hload
  obtain ⟨-, hle, hhead, -⟩ := ringRequires_iff.mp hreq
  have hsize : s.size.toNat < 16777216 := s.size.isLt
  have hdata : (contents s).take n = ringLoad s.capacity.toNat s.head.toNat n s := by
    rw [contents_takeBytes h hc hn hreq, List.take_left' (ringLoad_length ..)]
  rw [hload, respond_eq_answered, toNat_ofNat24 (by omega), takeBytes_served, hp, ← hdata]
  unfold takeBytes deliveredAndAnswered
  rw [newOffset_eq_mod hhead hle]
  rfl

theorem size_deliveredAndAnswered (n : Nat) (s : State) : (deliveredAndAnswered n s).size.toNat = s.size.toNat - n :=
  toNat_ofNat24 (Nat.lt_of_le_of_lt (Nat.sub_le ..) s.size.isLt)

/-- Settles O22: READ's own rule either has nothing to do or delivers the oldest bytes held. -/
theorem readDeliversTheOldestBytes : Obligations.ReadDeliversTheOldestBytes := by
  refine ⟨fun len => ⟨decode_ofNat (op := 7) len (by decide), illegalOffPorts _, noBufferOnPorts rfl, fun _ _ => rfl⟩, ?_⟩
  intro s len h hc hp
  have hexec := exec_read_of_pass (len := len) hp hc
  refine ⟨fun h0 => ?_, fun h0 hs => ?_⟩
  · rw [hexec, readBody_of_nothing h0, hp]
  · intro n
    have hpos : 1 ≤ n := Nat.one_le_iff_ne_zero.mpr (by omega)
    have hle : n ≤ s.size.toNat := Nat.min_le_right ..
    obtain ⟨-, -, -, hsize, -, -⟩ := h.ring hc
    have hnew := size_deliveredAndAnswered n s
    have hcap : (deliveredAndAnswered n s).capacity = s.capacity := rfl
    have hcon : (deliveredAndAnswered n s).constructed = true := hc
    have hdeliver := deliverServed_eq_deliveredAndAnswered h hc hp hpos hle
    refine ⟨hexec.trans ((readBody_of_some h0 hs).trans hdeliver), ?_, ?_⟩
    · rw [Bool.eq_false_iff, Ne, fullFlag_iff hcon, hnew, hcap]
      omega
    · rw [emptyFlag_iff hcon, hnew]
      omega

end Sys2Proof.Machine

namespace Sys2Proof.Machine

/-! ## The session state by its flags (10_state.md R112) -/

/-- CONSTRUCTED, PRODUCER_DONE and CONSUMER_EXITED in each session state (R112). -/
def Session.flags : Session → Bool × Bool × Bool
  | .unconstructed => (false, false, false)
  | .running => (true, false, false)
  | .producerDone => (true, true, false)
  | .terminated => (true, true, true)

theorem session_eq_some_iff {s : State} {a : Session} :
    session s = some a ↔ (s.constructed, s.producerDone, s.consumerExited) = a.flags := by
  unfold session
  generalize s.constructed = c, s.producerDone = d, s.consumerExited = e
  cases a <;> revert c d e <;> decide

/-- Taking an exception changes no session flag (60_exceptions.md R703). -/
theorem session_raise (e : Status) (s : State) : session (raise e s) = session s := by
  simp [session]

theorem Inv.session_of_no_buffer {s : State} (h : Inv s) (hc : s.constructed = false) :
    session s = some .unconstructed := by
  obtain ⟨-, -, -, -, hd, he⟩ := h.idle hc
  simp [session, hc, hd, he]

theorem Inv.session_isSome {s : State} (h : Inv s) : ∃ a, session s = some a := by
  cases hc : s.constructed with
  | false => exact ⟨_, h.session_of_no_buffer hc⟩
  | true =>
    cases he : s.consumerExited with
    | true => exact ⟨.terminated, by simp [session, hc, he, h.exited he]⟩
    | false =>
      cases hd : s.producerDone with
      | true => exact ⟨.producerDone, by simp [session, hc, hd, he]⟩
      | false => exact ⟨.running, by simp [session, hc, hd, he]⟩

/-- Setting PRODUCER_DONE moves only a running session (R504). -/
theorem session_signalled {s : State} {a : Session} (hc : s.constructed = true) (ha : session s = some a) :
    session { s with producerDone := true } = some (if a = .running then .producerDone else a) := by
  rw [session_eq_some_iff] at ha ⊢
  cases a <;> simp_all [Session.flags]

/-- Setting CONSUMER_EXITED after PRODUCER_DONE ends the session's data (R503). -/
theorem session_finished {s : State} (hc : s.constructed = true) (hd : s.producerDone = true) :
    session { s with consumerExited := true } = some .terminated := by
  simp [session, hc, hd]

theorem session_of_done {s : State} {a : Session} (hd : s.producerDone = true) (ha : session s = some a) :
    a = .producerDone ∨ a = .terminated := by
  rw [session_eq_some_iff] at ha
  cases a <;> simp_all [Session.flags]

theorem constructed_of_session {s : State} {a : Session} (ha : session s = some a) (hne : a ≠ .unconstructed) :
    s.constructed = true := by
  rw [session_eq_some_iff] at ha
  cases a <;> simp_all [Session.flags]

/-! ## The events of the table (41_coordinator.md R500) -/

/-- A CONSTRUCT of this capacity is answered OK. -/
def ConstructsOk (u : Turn) (s t : State) (cap : Count) : Prop :=
  Completing u .h (.construct cap) s
    ∧ ∃ w, IsReply w 0 cap.toNat ∧ t.trace.get .h = s.trace.get .h ++ [.response ⟨w, []⟩]

/-- A SIGNAL_PRODUCER_DONE is completed on a port that may issue it. -/
def Signals (u : Turn) (s : State) : Prop :=
  Completing u .p .signalProducerDone s ∨ Completing u .h .signalProducerDone s

/-- A CONSUME is answered END_OF_DATA. -/
def ConsumesEnd (u : Turn) (s t : State) : Prop :=
  ∃ max, Completing u .c (.consume max) s ∧ EndsOfData s t

/-- A row of the table: the session states before and after a turn, with the event between them. -/
inductive Transition (u : Turn) (s t : State) : Session → Session → Prop where
  | stays {a : Session} : Transition u s t a a
  | constructs {cap : Count} (h : ConstructsOk u s t cap) : Transition u s t .unconstructed .running
  | signals (h : Signals u s) : Transition u s t .running .producerDone
  | finishes (h : ConsumesEnd u s t) : Transition u s t .producerDone .terminated
  | closes {a : Session} (ha : a ≠ .unconstructed) (h : Completing u .h .destroy s ∨ u = .reset) :
      Transition u s t a .unconstructed

/-- DESTROY and reset lead to UNCONSTRUCTED from every session state. -/
theorem transition_to_unconstructed {u : Turn} {s t : State} (a : Session)
    (h : Completing u .h .destroy s ∨ u = .reset) : Transition u s t a .unconstructed := by
  by_cases ha : a = .unconstructed
  · rw [ha]; exact .stays
  · exact .closes ha h

theorem trace_respond_served (st : Status) (val : Count) (data : List Byte) (s : State) :
    (respond st val data s).trace.get s.served = s.trace.get s.served ++ [.response ⟨responseWord st val, data⟩] :=
  PerPort_get_set_same ..

theorem isReply_responseWord (st : Status) (val : Count) : IsReply (responseWord st val) (statusCode st).toNat val.toNat := by
  simp [IsReply]

/-- Every turn takes its session along a row of the table. -/
theorem act_transition {u : Turn} {s t : State} {a : Session} (h : act u s = .next t) (ha : session s = some a) :
    ∃ b, session t = some b ∧ Transition u s t a b := by
  have stays (ht : session t = session s) : ∃ b, session t = some b ∧ Transition u s t a b := ⟨a, ht.trans ha, .stays⟩
  cases act_change h with
  | resets => exact ⟨_, rfl, transition_to_unconstructed a (.inr rfl)⟩
  | idles _ | accepts _ _ _ => exact stays rfl
  | illegal _ _ => exact stays (session_raise ..)
  | @runs q cmd i t hs hd hc =>
    cases hc with
    | failsCheck _ | alreadyThere _ _ => exact stays (session_raise ..)
    | replies _ _ _ _ _ | stores _ _ _ _ _ _ | delivers _ _ _ _ _ _ | produceWaits _ _ _ _ | consumeWaits _ _ _ _ =>
      exact stays rfl
    | opens hp hnone _ _ _ =>
      obtain rfl : q = .h := hp
      obtain rfl : a = .unconstructed := by
        by_contra hne
        exact Bool.false_ne_true (hnone.symm.trans (constructed_of_session ha hne))
      exact ⟨.running, rfl, .constructs ⟨⟨rfl, cmd, hs, hd⟩, _, isReply_responseWord .., trace_respond_served ..⟩⟩
    | closes hp _ =>
      obtain rfl : q = .h := hp
      exact ⟨_, rfl, transition_to_unconstructed a (.inl ⟨rfl, cmd, hs, hd⟩)⟩
    | finishes hp hbuf _ hdone =>
      obtain rfl : q = .c := hp
      refine ⟨.terminated, session_finished (s := s) hbuf hdone, ?_⟩
      obtain rfl | rfl := session_of_done hdone ha
      · exact .finishes ⟨_, ⟨rfl, cmd, hs, hd⟩, _, isReply_responseWord .., trace_respond_served ..⟩
      · exact .stays
    | signals hp hbuf =>
      refine ⟨_, session_signalled (s := s) hbuf ha, ?_⟩
      split
      · next hrun =>
        subst hrun
        refine .signals ?_
        obtain rfl | rfl : q = .p ∨ q = .h := hp
        · exact .inl ⟨rfl, cmd, hs, hd⟩
        · exact .inr ⟨rfl, cmd, hs, hd⟩
      · exact .stays

/-! ## What each event does to the session -/

theorem act_of_completing {u : Turn} {q : Port} {i : Instr} {s : State} (h : Completing u q i s) :
    act u s = exec i (serve q s) := by
  obtain ⟨rfl, cmd, hs, hd⟩ := h
  exact act_of_legal hs hd

/-- The status of an answer can be read off the response it added to the served port's observation. -/
theorem status_of_reply {st st' : Status} {val : Count} {n : Nat} {data data' : List Byte} {w : Word} {s s₁ : State}
    (htrace : s₁.trace = s.trace) (hw : IsReply w (statusCode st').toNat n)
    (h : (respond st val data s₁).trace.get s₁.served = s.trace.get s₁.served ++ [.response ⟨w, data'⟩]) : st = st' := by
  rw [trace_respond_served, htrace, List.append_cancel_left_eq] at h
  obtain ⟨rfl, -⟩ : responseWord st val = w ∧ data = data' := by simpa using h
  rw [IsReply, stField_responseWord] at hw
  exact statusCode_inj (BitVec.eq_of_toNat_eq hw.1)

/-- CONSTRUCT on H opens a session where there is none, or answers another status than OK. -/
theorem exec_construct_opens_or_fails {s : State} (cap : Count) (hp : s.served = .h) :
    (s.constructed = false ∧ exec (.construct cap) s = .next (respond .ok cap [] (openSession cap s)))
      ∨ ∃ st s₁, st ≠ .ok ∧ s₁.trace = s.trace ∧ s₁.served = .h
        ∧ exec (.construct cap) s = .next (respond st 0#24 [] s₁) := by
  cases hc : s.constructed with
  | true => exact .inr ⟨.alreadyConstructed, _, by decide, by simp, by simpa using hp, exec_construct_of_buffer hp hc⟩
  | false =>
    by_cases hcap : cap.toNat = 0 ∨ s.params.capLimit ≤ cap.toNat
    · exact .inr ⟨.invalidArgument, s, by decide, rfl, hp, exec_construct_of_invalid hp hc hcap⟩
    · have h1 : 1 ≤ cap.toNat := by omega
      have hl : cap.toNat < s.params.capLimit := by omega
      by_cases hm : cap.toNat ≤ s.params.memBytes
      · exact .inl ⟨rfl, exec_construct_opens hp hc h1 hl hm⟩
      · exact .inr ⟨.outOfMemory, s, by decide, rfl, hp, exec_construct_of_too_large hp hc h1 hl (by omega)⟩

theorem ConstructsOk.session_opened {u : Turn} {s t : State} {cap : Count} (hl : Inv s) (h : act u s = .next t)
    (hok : ConstructsOk u s t cap) : session s = some .unconstructed ∧ session t = some .running := by
  obtain ⟨hrun, w, hw, htrace⟩ := hok
  rw [act_of_completing hrun] at h
  rcases exec_construct_opens_or_fails (s := serve .h s) cap rfl with ⟨hc, hexec⟩ | ⟨st, s₁, hst, hs₁, hserved, hexec⟩
  · obtain rfl := Host.Outcome.next.inj (hexec.symm.trans h)
    exact ⟨hl.session_of_no_buffer hc, rfl⟩
  · obtain rfl := Host.Outcome.next.inj (hexec.symm.trans h)
    rw [← hserved] at htrace
    exact absurd (status_of_reply (st' := .ok) hs₁ hw htrace) hst

theorem exec_signal_of_pass {s : State} (hp : s.served ∈ [Port.p, .h]) (hc : s.constructed = true) :
    exec .signalProducerDone s = .next (respond .ok 0#24 [] { s with producerDone := true }) := by
  rw [exec, execSignalProducerDone, checked_of_pass hp fun _ => hc]

theorem Signals.session_after {u : Turn} {s t : State} {a : Session} (h : act u s = .next t) (hsig : Signals u s)
    (ha : session s = some a) (hne : a ≠ .unconstructed) :
    session t = some (if a = .running then .producerDone else a) := by
  have hc := constructed_of_session ha hne
  obtain ⟨q, hq, hrun⟩ : ∃ q ∈ [Port.p, .h], Completing u q .signalProducerDone s := by simpa [Signals] using hsig
  rw [act_of_completing hrun, exec_signal_of_pass (s := serve q s) hq hc] at h
  obtain rfl := Host.Outcome.next.inj h
  exact session_signalled (s := s) hc ha

/-- A CONSUME leaves the session flags, or sets CONSUMER_EXITED after PRODUCER_DONE. -/
theorem Change.session_of_consume {s t : State} {max : Count} (h : Change s (.consume max) t) :
    session t = session s ∨ session t = some .terminated := by
  cases h with
  | failsCheck _ => exact .inl (session_raise ..)
  | replies _ _ _ _ _ | delivers _ _ _ _ _ _ | consumeWaits _ _ _ _ => exact .inl rfl
  | stores hi _ _ _ _ _ => simp at hi
  | finishes _ hc _ hd => exact .inr (session_finished (s := s) hc hd)

/-- Only a CONSUME that sets CONSUMER_EXITED answers END_OF_DATA. -/
theorem Change.session_of_endsOfData {s t : State} {max : Count} (h : Change s (.consume max) t) (hp : s.served = .c)
    (hend : EndsOfData s t) : session t = some .terminated := by
  obtain ⟨w, hw, htrace⟩ := hend
  rw [← hp] at htrace
  have status {st val data s₁} (hs₁ : s₁.trace = s.trace) (hserved : s₁.served = s.served)
      (ht : t = respond st val data s₁) : st = .endOfData := by
    rw [ht, ← hserved] at htrace
    exact status_of_reply hs₁ hw htrace
  cases h with
  | failsCheck hk =>
    have hst := status (recordFault_trace ..) (recordFault_served ..) rfl
    exact absurd (isFault_of_commonCheck hk) (by simp [hst, isFault])
  | replies _ _ hne _ _ => exact absurd (status rfl rfl rfl) hne
  | delivers _ _ _ _ _ _ => cases status (takeBytes_trace ..) (takeBytes_served ..) rfl
  | stores hi _ _ _ _ _ => simp at hi
  | finishes _ hc _ hd => exact session_finished (s := s) hc hd
  | consumeWaits _ _ _ _ => simp at htrace

theorem ConsumesEnd.session_terminated {u : Turn} {s t : State} (h : act u s = .next t) (hend : ConsumesEnd u s t) :
    session t = some .terminated := by
  obtain ⟨max, hrun, hend⟩ := hend
  rw [act_of_completing hrun] at h
  exact (exec_change h).session_of_endsOfData rfl hend

/-- A terminated session stays so under CONSUME (R503). -/
theorem session_of_consume_terminated {u : Turn} {s t : State} {max : Count} (h : act u s = .next t)
    (hrun : Completing u .c (.consume max) s) (ha : session s = some .terminated) : session t = some .terminated := by
  rw [act_of_completing hrun] at h
  exact (exec_change h).session_of_consume.elim (·.trans ha) id

theorem exec_destroy_of_buffer {s : State} (hp : s.served = .h) (hc : s.constructed = true) :
    exec .destroy s = .next (respond .ok 0#24 [] (closeSession (abort .c (abort .p s)))) := by
  rw [exec, execDestroy, checked_of_pass (by simp [hp, portRights]) fun _ => hc]

/-- DESTROY on H closes the session, and without one is answered NO_BUFFER (40_ringbuffer.md R408). -/
theorem session_of_destroy {u : Turn} {s t : State} (hl : Inv s) (h : act u s = .next t)
    (hrun : Completing u .h .destroy s) : session t = some .unconstructed := by
  rw [act_of_completing hrun] at h
  cases hc : s.constructed with
  | false =>
    rw [noBufferOnPorts rfl (serve .h s) (List.mem_singleton.mpr rfl) hc] at h
    obtain rfl := Host.Outcome.next.inj h
    exact hl.session_of_no_buffer hc
  | true =>
    rw [exec_destroy_of_buffer (s := serve .h s) rfl hc] at h
    obtain rfl := Host.Outcome.next.inj h
    rfl

theorem session_of_reset {s t : State} (h : act .reset s = .next t) : session t = some .unconstructed := by
  rw [act_reset] at h
  obtain rfl := Host.Outcome.next.inj h
  rfl

/-- Settles O41: every turn follows a row of the table, and each event of the table fixes the session state after it. -/
theorem sessionChangesExactlyAsTheTable : Obligations.SessionChangesExactlyAsTheTable := by
  intro u s t hl h constructOk signal endOfData
  obtain ⟨a, ha⟩ := hl.session_isSome
  obtain ⟨b, hb, htable⟩ := act_transition h ha
  have before {x} (hx : session s = some x) : a = x := Option.some.inj (ha.symm.trans hx)
  have after {x} (hx : session t = some x) : b = x := Option.some.inj (hb.symm.trans hx)
  refine ⟨a, b, ha, hb, ?_, fun cap hok => ?_, fun hsig hrun => ?_, fun hsig hdone => ?_, fun hend _ => ?_, ?_, ?_⟩
  · cases htable with
    | stays => exact .inl rfl
    | constructs hok => exact .inr (.inl ⟨rfl, rfl, _, hok⟩)
    | signals hsig => exact .inr (.inr (.inl ⟨rfl, rfl, hsig⟩))
    | finishes hend => exact .inr (.inr (.inr (.inl ⟨rfl, rfl, hend⟩)))
    | closes hne hevent => exact .inr (.inr (.inr (.inr ⟨hne, rfl, hevent⟩)))
  · obtain ⟨hs, ht⟩ := ConstructsOk.session_opened hl h hok
    exact ⟨before hs, after ht⟩
  · subst hrun
    exact after (Signals.session_after h hsig ha (by decide))
  · obtain rfl | rfl := hdone <;> exact after (Signals.session_after h hsig ha (by decide))
  · exact after (ConsumesEnd.session_terminated h hend)
  · rintro ⟨max, hrun⟩ rfl
    exact after (session_of_consume_terminated h hrun ha)
  · rintro (hrun | rfl)
    · exact after (session_of_destroy hl h hrun)
    · exact after (session_of_reset h)

end Sys2Proof.Machine

namespace Sys2Proof.Machine

/-! ## PRODUCE at shutdown (41_coordinator.md R502) -/

theorem exec_produce_without_room {s : State} {len : Count} (hp : s.served = .p) (hc : s.constructed = true)
    (hroom : avail s < len.toNat) :
    exec (.produce len) s = if s.producerDone then shutdownComplete len s else .next s := by
  rw [exec, execProduce, checked_of_pass (by simp [hp, portRights]) fun _ => hc, if_neg (by omega)]

theorem shutdownComplete_of_truncate {s : State} (hpol : s.params.policy = .truncate) (len : Count) :
    shutdownComplete len s = writeBody len s := by
  rw [shutdownComplete, hpol]

theorem shutdownComplete_of_drop {s : State} (hpol : s.params.policy = .drop) (len : Count) :
    shutdownComplete len s = .next (answered s.served 0x90000000#32 [] s) := by
  rw [shutdownComplete, hpol, respond_eq_answered]
  rfl

/-- Settles O25: without room PRODUCE waits for PRODUCER_DONE; then the policy picks WRITE's own rule or the drop. -/
theorem produceAtShutdownFollowsThePolicy : Obligations.ProduceAtShutdownFollowsThePolicy := by
  intro s len cmd h hc hp hs hd room hroom
  have hexec := exec_produce_without_room hp hc hroom
  have hlen0 : len.toNat ≠ 0 := by omega
  refine ⟨fun hdone => ?_, fun hdone hpol hfull => ?_, fun hdone hpol hfree => ?_, fun hdone hpol => ?_⟩
  · rw [hexec, if_neg (by simp [hdone])]
  · obtain ⟨w, hw, hbody⟩ := writeBody_of_full hlen0 hfull
    refine ⟨w, hw, ?_⟩
    rw [hexec, if_pos hdone, shutdownComplete_of_truncate hpol, hbody, hp]
  · have hlen : cmd.payload.length = len.toNat := decode_payload h hs hd
    obtain ⟨st, hstore, hst⟩ :=
      storeServed_eq_storedAndAnswered h hc hp hs (Nat.one_le_iff_ne_zero.mpr hfree) (Nat.le_refl (avail s)) (by omega)
    refine ⟨st, ?_, hst⟩
    have hmin : min len.toNat (avail s) = avail s := Nat.min_eq_right (Nat.le_of_lt hroom)
    rw [hexec, if_pos hdone, shutdownComplete_of_truncate hpol, writeBody_of_room hlen0 hfree, hmin]
    exact hstore
  · rw [hexec, if_pos hdone, shutdownComplete_of_drop hpol, hp]

/-! ## SIGNAL_PRODUCER_DONE (41_coordinator.md R504) -/

theorem guardOf_of_producerDone {s : State} (hd : s.producerDone = true) (q : Port) (i : Instr) : guardOf q i s = true := by
  cases i with
  | produce _ | consume _ => simp [guardOf, hd]
  | construct _ | destroy | capacity | size | avail | write _ | read _ | signalProducerDone | status | head | tail => rfl

/-- Once PRODUCER_DONE is set, no pending command waits. -/
theorem completeEnabled_of_producerDone {q : Port} {s : State} (hd : s.producerDone = true) (hs : s.pend.get q ≠ none) :
    completeEnabled q s = true := by
  obtain ⟨cmd, hcmd⟩ := Option.ne_none_iff_exists'.mp hs
  cases hdec : decode cmd.word with
  | error e => exact completeEnabled_of_illegal hcmd hdec
  | ok i => rw [completeEnabled_of_legal hcmd hdec, guardOf_of_producerDone hd]

/-- Settles O27: the signal's own rule sets PRODUCER_DONE, by which every guard holds. -/
theorem signalSetsProducerDoneAndWakesAll : Obligations.SignalSetsProducerDoneAndWakesAll := by
  refine ⟨⟨takesNoOperand (by decide) fun _ => rfl, fun _ _ => rfl⟩, illegalOffPorts _, noBufferOnPorts rfl,
    fun s hc hp => ⟨?_, fun q hs => ?_, fun hd => ?_, fun hrun => ?_⟩⟩
  · rw [exec_signal_of_pass hp hc, respond_eq_answered]
    rfl
  · exact completeEnabled_of_producerDone rfl hs
  · rw [← hd]
  · exact session_signalled hc hrun

end Sys2Proof.Machine

namespace Sys2Proof.Machine

/-! ## HEAD and TAIL (42_status_debug.md R601, R602) -/

theorem exec_head_of_buffer {s : State} (hc : s.constructed = true) :
    exec .head s = .next (respond .ok s.head [] s) := by
  rw [exec, execHead, checked_of_pass (by cases s.served <;> decide) fun _ => hc]

theorem exec_tail_of_buffer {s : State} (hc : s.constructed = true) :
    exec .tail s = .next (respond .ok s.tail [] s) := by
  rw [exec, execTail, checked_of_pass (by cases s.served <;> decide) fun _ => hc]

/-- The write offset has caught up with the read offset in an empty ring and gone once round to it in a full one
(10_state.md R107). -/
theorem Inv.head_eq_tail {s : State} (h : Inv s) (hc : s.constructed = true)
    (hs : s.size.toNat = 0 ∨ s.size = s.capacity) : s.head = s.tail := by
  obtain ⟨-, -, -, -, hhead, htail⟩ := h.ring hc
  apply BitVec.eq_of_toNat_eq
  rw [htail]
  rcases hs with hempty | hfull
  · rw [hempty, Nat.add_zero, Nat.mod_eq_of_lt hhead]
  · rw [hfull, Nat.add_mod_right, Nat.mod_eq_of_lt hhead]

/-- Settles O19: each offset passes the common checks on every port with a buffer and answers its field, and the ring's
invariant relates the two. -/
theorem offsetQueriesAnswer : Obligations.OffsetQueriesAnswer := by
  refine ⟨⟨?_, ?_, fun _ _ => rfl, fun _ _ => rfl⟩, fun s hc => ⟨?_, ?_, fun h => ⟨?_, h.head_eq_tail hc⟩⟩,
    noBufferOnPorts rfl, noBufferOnPorts rfl⟩
  · exact takesNoOperand (by decide) fun _ => rfl
  · exact takesNoOperand (by decide) fun _ => rfl
  · rw [exec_head_of_buffer hc, respond_eq_answered]
    rfl
  · rw [exec_tail_of_buffer hc, respond_eq_answered]
    rfl
  · obtain ⟨-, -, -, -, -, htail⟩ := h.ring hc
    exact htail

/-! ## STATUS (42_status_debug.md R600) -/

/-- STATUS needs no buffer, so it passes the common checks in every state. -/
theorem exec_status (s : State) : exec .status s = .next (respond .ok (statusValue s) [] s) := by
  rw [exec, execStatus, checked_of_pass (by cases s.served <;> decide) (by simp [needsBuffer])]

theorem pWaiting_iff {s : State} :
    pWaiting s = true ↔ ∃ cmd len, s.pend.get .p = some cmd ∧ decode cmd.word = .ok (.produce len)
      ∧ guardOf .p (.produce len) s = false := by
  unfold pWaiting
  split
  case h_1 hs => simp [hs]
  case h_2 cmd hs =>
    split
    case h_1 len hd => simp [hs, hd]
    case h_2 hd => simpa [hs] using fun n hn => absurd hn (hd n)

theorem cWaiting_iff {s : State} :
    cWaiting s = true ↔ ∃ cmd max, s.pend.get .c = some cmd ∧ decode cmd.word = .ok (.consume max)
      ∧ guardOf .c (.consume max) s = false := by
  unfold cWaiting
  split
  case h_1 hs => simp [hs]
  case h_2 cmd hs =>
    split
    case h_1 max hd => simp [hs, hd]
    case h_2 hd => simpa [hs] using fun n hn => absurd hn (hd n)

theorem decode_statusWord : decode 0xB0000000#32 = .ok .status := decode_ofNat_bare (op := 0xB) (by decide)

/-- A port whose slot holds a STATUS has nothing that waits. -/
theorem pWaiting_of_status {s : State} (hs : s.pend.get .p = some ⟨0xB0000000#32, []⟩) : pWaiting s = false := by
  simp only [pWaiting, hs, decode_statusWord]

@[inherit_doc pWaiting_of_status]
theorem cWaiting_of_status {s : State} (hs : s.pend.get .c = some ⟨0xB0000000#32, []⟩) : cWaiting s = false := by
  simp only [cWaiting, hs, decode_statusWord]

theorem emptyFlag_eq (s : State) : emptyFlag s = (s.constructed && s.size.toNat == 0) := by
  rw [emptyFlag, Bool.eq_iff_iff]
  simp [toNat_eq_zero_iff]

/-- Settles O20: the value is the sum of its fields, and a waiting bit is a slot whose guard is false. -/
theorem statusReportsEveryFlag : Obligations.StatusReportsEveryFlag := by
  refine ⟨⟨takesNoOperand (by decide) fun _ => rfl, fun _ _ => rfl⟩, ?_⟩
  intro s bit
  refine ⟨pWaiting s, cWaiting s, ?_, ?_, ?_, fun _ => pWaiting_of_status, fun _ => cWaiting_of_status⟩
  · simp only [pWaiting_iff, guardOf_produce_eq_false, avail]
  · simp only [cWaiting_iff, guardOf_consume_eq_false]
  · have hbit : ∀ b : Bool, bit b = b.toNat := fun b => by cases b <;> rfl
    rw [exec_status, respond_eq_answered, statusValue_toNat, emptyFlag_eq]
    simp only [hbit]
    rfl

end Sys2Proof.Machine

namespace Sys2Proof.Machine

/-! ## Port rights (60_exceptions.md R709) -/

/-- The answer 0x70000000 on the served port is the status ILLEGAL_COMMAND's and no other's (30_encoding.md R308). -/
theorem status_of_illegalCommand_sent {st : Status} {val : Count} {data : List Byte} {s s₁ : State}
    (hserved : s₁.served = s.served) (htrace : s₁.trace.get s.served = s.trace.get s.served)
    (h : newEvents s.served s (respond st val data s₁) = [.response ⟨0x70000000#32, []⟩]) : st = .illegalCommand := by
  rw [newEvents_respond _ _ _ _ htrace, if_pos hserved.symm] at h
  obtain ⟨hw, -⟩ : responseWord st val = 0x70000000#32 ∧ data = [] := by simpa using h
  exact (responseWord_inj (b := .illegalCommand) (w := 0#24) hw).1

/-- Of all that an operation can do, only the port check sends ILLEGAL_COMMAND to the served port. -/
theorem Change.served_not_mem_portRights {i : Instr} {s t : State} (hc : Change s i t)
    (h : newEvents s.served s t = [.response ⟨0x70000000#32, []⟩]) : s.served ∉ portRights i := by
  cases hc with
  | failsCheck hk =>
    obtain rfl := status_of_illegalCommand_sent (by simp) (by simp) h
    obtain ⟨-, hport⟩ | ⟨hne, -⟩ := commonCheck_eq_some hk
    · exact hport
    · cases hne
  | alreadyThere _ _ => cases status_of_illegalCommand_sent (by simp) (by simp) h
  | replies _ hf _ _ _ =>
    obtain rfl := status_of_illegalCommand_sent rfl rfl h
    cases hf
  | closes hp _ => cases status_of_illegalCommand_sent (by simp) (by simp [abort_trace, hp]) h
  | opens _ _ _ _ _ | stores _ _ _ _ _ _ | delivers _ _ _ _ _ _ | finishes _ _ _ _ | signals _ _ =>
    cases status_of_illegalCommand_sent rfl rfl h
  | produceWaits _ _ _ _ | consumeWaits _ _ _ _ => simp [newEvents] at h

/-- Settles O10: off its ports an operation fails the port check, and nothing else an operation does is answered
ILLEGAL_COMMAND. -/
theorem portRightsAreTheTable : Obligations.PortRightsAreTheTable := by
  refine ⟨fun _ => illegalOffPorts _, illegalOffPorts _, fun _ => illegalOffPorts _, fun _ => illegalOffPorts _,
    fun _ => illegalOffPorts _, fun _ => illegalOffPorts _, illegalOffPorts _, fun i s t hexec htrace => ?_⟩
  have hport : s.served ∉ portRights i := (exec_change hexec).served_not_mem_portRights (newEvents_append htrace)
  cases i with
  | construct _ | destroy | write _ | produce _ | read _ | consume _ => simpa [portRights] using hport
  | signalProducerDone | capacity | size | avail | status | head | tail =>
    revert hport
    cases s.served <;> simp [portRights]

end Sys2Proof.Machine

namespace Sys2Proof.Machine

/-! ## Decode and encode (30_encoding.md R301, R303) -/

/-- Settles O3: every encoding is a command word, which is read by its opcode's row. -/
theorem decodeOfEncodeIsTheOperation : Obligations.DecodeOfEncodeIsTheOperation := by
  intro i
  cases i with
  | construct _ | write _ | read _ | produce _ | consume _ => exact decode_commandWord ..
  | destroy | capacity | size | avail | signalProducerDone | status | head | tail => exact decode_commandWord ..

/-- Settles O4: of the decoder's answers only a legal word's is an operation, and that word is the operation's own. -/
theorem encodeOfDecodeIsTheWord : Obligations.EncodeOfDecodeIsTheWord := by
  intro w i hd
  have h := decode_decoded w
  rw [hd] at h
  cases h with
  | legal _ _ _ henc => exact henc

/-! ## What every operation and turn keeps (40_ringbuffer.md R409) -/

theorem Inv_finished {s : State} (h : Inv s) (hc : s.constructed = true) (hd : s.producerDone = true) :
    Inv { s with consumerExited := true } :=
  ⟨h.params, fun h0 => absurd (hc.symm.trans h0) (by decide), h.ring, fun _ => hd, h.fault, h.slots, h.storage⟩

theorem Inv_signalled {s : State} (h : Inv s) (hc : s.constructed = true) : Inv { s with producerDone := true } :=
  ⟨h.params, fun h0 => absurd (hc.symm.trans h0) (by decide), h.ring, fun _ => rfl, h.fault, h.slots, h.storage⟩

theorem Inv_advance {s : State} (h : Inv s) : Inv (advance s) :=
  ⟨h.params, h.idle, h.ring, h.exited, h.fault, h.slots, h.storage⟩

theorem Change.inv {i : Instr} {s t : State} (hc : Change s i t) (h : Inv s) : Inv t := by
  cases hc with
  | failsCheck _ | alreadyThere _ _ => exact Inv_raise h _
  | replies _ _ _ _ _ => exact Inv_respondOn h ..
  | opens _ hc h0 hl hm => exact Inv_respondOn (Inv_openSession h hc h0 hl hm) ..
  | closes _ _ => exact Inv_respondOn (Inv_closeSession (Inv_abort (Inv_abort h .p) .c)) ..
  | stores _ _ hc _ ha hr => exact Inv_respondOn (Inv_putBytes h hc ha hr) ..
  | delivers _ _ hc _ ha hr => exact Inv_respondOn (Inv_takeBytes h hc ha hr) ..
  | finishes _ hc _ hd => exact Inv_respondOn (Inv_finished h hc hd) ..
  | signals _ hc => exact Inv_respondOn (Inv_signalled h hc) ..
  | produceWaits _ _ _ _ | consumeWaits _ _ _ _ => exact h

theorem act_inv {u : Turn} {s t : State} (h : Inv s) (hu : act u s = .next t) : Inv t := by
  cases act_change hu with
  | resets => exact Inv_resetPulse h
  | idles _ => exact Inv_serve h _
  | accepts _ _ hl => exact Inv_accepted (Inv_serve h _) hl
  | illegal _ _ => exact Inv_raise (Inv_serve h _) _
  | runs _ _ hc => exact hc.inv (Inv_serve h _)

/-- Settles O34: a step is a turn from the state with one turn used up, and everything a turn does keeps the invariant. -/
theorem stepsKeepTheStateLegal : Obligations.StepsKeepTheStateLegal :=
  ⟨fun _ _ h hstep => act_inv (Inv_advance h) hstep, fun _ _ _ => act_inv⟩

/-! ## Every turn from a legal state answers (60_exceptions.md R700) -/

/-- A legal operation in the served slot answers a next state: the transfers find the payload and the room they need. -/
theorem exec_next {i : Instr} {s : State} {cmd : Command} (h : Inv s) (hs : s.pend.get s.served = some cmd)
    (hd : decode cmd.word = .ok i) : ∃ t, exec i s = .next t := by
  have payload : (servedPayload s).length = payloadOf s.served i := by
    rw [servedPayload_of_pend hs, decode_payload h hs hd]
  cases i with
  | destroy | capacity | size | avail | signalProducerDone | status | head | tail =>
    simp only [exec, execDestroy, execCapacity, execSize, execAvail, execSignalProducerDone, execStatus, execHead, execTail]
    exact checked_next_of fun _ => ⟨_, rfl⟩
  | construct cap =>
    rw [exec, execConstruct]
    refine checked_next_of fun hk => ?_
    split_ifs
    all_goals exact ⟨_, rfl⟩
  | write len =>
    rw [exec, execWrite]
    refine checked_next_of fun hk => ?_
    obtain ⟨hp, hc⟩ := commonCheck_eq_none.mp hk
    rw [List.mem_singleton.mp hp] at payload
    exact writeBody_next h (hc rfl) payload
  | read len =>
    rw [exec, execRead]
    refine checked_next_of fun hk => ?_
    exact readBody_next h ((commonCheck_eq_none.mp hk).2 rfl)
  | produce len =>
    rw [exec, execProduce]
    refine checked_next_of fun hk => ?_
    obtain ⟨hp, hc⟩ := commonCheck_eq_none.mp hk
    rw [List.mem_singleton.mp hp] at payload
    split_ifs with hroom h0 hdone
    · exact ⟨_, rfl⟩
    · exact storeServed_next h (hc rfl) (pos_of_ne h0) hroom (Nat.le_of_eq payload.symm)
    · unfold shutdownComplete
      split
      · exact writeBody_next h (hc rfl) payload
      · exact ⟨_, rfl⟩
    · exact ⟨_, rfl⟩
  | consume max =>
    rw [exec, execConsume]
    refine checked_next_of fun hk => ?_
    split_ifs
    · exact ⟨_, rfl⟩
    · exact ⟨_, rfl⟩
    · exact readBody_next h ((commonCheck_eq_none.mp hk).2 rfl)

theorem act_next {s : State} (h : Inv s) (u : Turn) : ∃ t, act u s = .next t := by
  cases u with
  | reset => exact ⟨_, act_reset s⟩
  | port q =>
    cases hs : s.pend.get q with
    | none => exact ⟨_, act_of_empty hs⟩
    | some cmd =>
      cases hd : decode cmd.word with
      | error e => exact ⟨_, act_of_illegal hs hd⟩
      | ok i => rw [act_of_legal hs hd]; exact exec_next (Inv_serve h q) hs hd

/-- Settles O35: every operation answers a next state from a legal state, and so does every turn. -/
theorem legalStatesNeverStop : Obligations.LegalStatesNeverStop :=
  ⟨fun _ h => act_next (Inv_advance h) _, fun u _ h => act_next h u⟩

end Sys2Proof.Machine

namespace Sys2Proof.Machine

/-! ## The bytes a turn stores and delivers (20_memory.md R217) -/

theorem storedBy_of_no_event {s t : State} (h : newEvents .p s t = []) : storedBy s t = [] := by
  unfold storedBy
  rw [h]
  cases s.pend.get .p <;> rfl

theorem storedBy_of_empty {s t : State} (h : s.pend.get .p = none) : storedBy s t = [] := by
  unfold storedBy
  rw [h]

/-- A WRITE or PRODUCE that is answered OK stores as many payload bytes as its answer counts, anything else none. -/
theorem storedBy_of_event {s t : State} {cmd : Command} {i : Instr} {st : Status} {val : Count} {data : List Byte}
    (hs : s.pend.get .p = some cmd) (hd : decode cmd.word = .ok i)
    (hev : newEvents .p s t = [.response ⟨responseWord st val, data⟩]) :
    storedBy s t = match i with
      | .write _ | .produce _ => if st = .ok then cmd.payload.take val.toNat else []
      | _ => [] := by
  have hok : stField (responseWord st val) = 0x0#4 ↔ st = .ok := by
    rw [stField_responseWord]
    exact ⟨statusCode_inj (b := .ok), fun h => by rw [h]; rfl⟩
  unfold storedBy
  simp only [hs, hev, hd, hok, valField_responseWord]
  cases i <;> rfl

/-- An answer that counts no bytes moved stores none, whichever operation it answers. -/
theorem storedBy_respond_eq_nil {s s₁ : State} {cmd : Command} {i : Instr} {st : Status} {val : Count} {data : List Byte}
    (hs : s.pend.get s.served = some cmd) (hd : decode cmd.word = .ok i) (htrace : s₁.trace = s.trace)
    (hserved : s₁.served = s.served) (hval : st = .ok → movesBytes i = true → val = 0#24) :
    storedBy s (respond st val data s₁) = [] := by
  have hev := newEvents_respond .p st val data (congrArg (·.get .p) htrace)
  by_cases hp : s.served = .p
  · rw [if_pos (by rw [hserved, hp])] at hev
    rw [hp] at hs
    rw [storedBy_of_event hs hd hev]
    cases i with
    | write _ | produce _ =>
      by_cases hst : st = .ok
      · simp [hval hst rfl]
      · simp [hst]
    | construct _ | destroy | capacity | size | avail | read _ | consume _ | signalProducerDone | status | head | tail => rfl
  · exact storedBy_of_no_event (hev.trans (if_neg (by rw [hserved]; exact fun h => hp h.symm)))

theorem deliveredBy_of_no_event {s t : State} (h : newEvents .c s t = []) : deliveredBy s t = [] := by
  unfold deliveredBy
  rw [h]

/-- The read data of an answer is delivered where it is sent on C. -/
theorem deliveredBy_respond {s s₁ : State} {st : Status} {val : Count} {data : List Byte} (htrace : s₁.trace = s.trace) :
    deliveredBy s (respond st val data s₁) = if s₁.served = .c then data else [] := by
  have hev := newEvents_respond .c st val data (congrArg (·.get .c) htrace)
  split
  · next hp =>
    rw [if_pos hp.symm] at hev
    unfold deliveredBy
    rw [hev]
  · next hp => exact deliveredBy_of_no_event (hev.trans (if_neg fun h => hp h.symm))

theorem deliveredBy_respond_nil {s s₁ : State} {st : Status} {val : Count} (htrace : s₁.trace = s.trace) :
    deliveredBy s (respond st val [] s₁) = [] := by
  rw [deliveredBy_respond htrace, ite_self]

/-! ## The order of the bytes (20_memory.md section 4) -/

/-- What is held and then stored is what is delivered and then held. -/
def KeepsByteOrder (s t : State) : Prop := contents s ++ storedBy s t = deliveredBy s t ++ contents t

theorem keepsByteOrder_of_nothing_moved {s t : State} (hst : storedBy s t = []) (hdl : deliveredBy s t = [])
    (hcon : contents t = contents s) : KeepsByteOrder s t := by
  rw [KeepsByteOrder, hst, hdl, hcon, List.append_nil, List.nil_append]

/-- An answer without read data that counts no bytes moved and leaves what is held. -/
theorem keepsByteOrder_respond {s s₁ : State} {cmd : Command} {i : Instr} {st : Status} {val : Count}
    (hs : s.pend.get s.served = some cmd) (hd : decode cmd.word = .ok i) (htrace : s₁.trace = s.trace)
    (hserved : s₁.served = s.served) (hval : st = .ok → movesBytes i = true → val = 0#24)
    (hcon : contents s₁ = contents s) : KeepsByteOrder s (respond st val [] s₁) :=
  keepsByteOrder_of_nothing_moved (storedBy_respond_eq_nil hs hd htrace hserved hval) (deliveredBy_respond_nil htrace) hcon

theorem contents_recordFault (e : Status) (s : State) : contents (recordFault e s) = contents s := by
  apply contents_congr <;> simp

/-- Taking an exception moves no byte. -/
theorem keepsByteOrder_raise {s : State} {cmd : Command} {i : Instr} {e : Status} (hs : s.pend.get s.served = some cmd)
    (hd : decode cmd.word = .ok i) (he : isFault e = true) : KeepsByteOrder s (raise e s) := by
  refine keepsByteOrder_respond hs hd (recordFault_trace ..) (recordFault_served ..) (fun hok => ?_) (contents_recordFault ..)
  rw [hok] at he
  cases he

/-- A WRITE or PRODUCE adds what it stores at the end of what is held. -/
theorem keepsByteOrder_stores {s : State} {cmd : Command} {i : Instr} {len : Count} {n : Nat} (h : Inv s)
    (hs : s.pend.get s.served = some cmd) (hd : decode cmd.word = .ok i) (hi : i = .write len ∨ i = .produce len)
    (hp : s.served = .p) (hc : s.constructed = true) (ha : n ≤ avail s) (hr : CanPut n s) :
    KeepsByteOrder s (respond .ok (BitVec.ofNat 24 n) [] (putBytes n s)) := by
  have hn : n < 16777216 := Nat.lt_of_le_of_lt ha (avail_lt s)
  have hev : newEvents .p s (respond .ok (BitVec.ofNat 24 n) [] (putBytes n s))
      = [.response ⟨responseWord .ok (BitVec.ofNat 24 n), []⟩] :=
    (newEvents_respond _ _ _ _ rfl).trans (if_pos hp.symm)
  have hst : storedBy s (respond .ok (BitVec.ofNat 24 n) [] (putBytes n s)) = (servedPayload s).take n := by
    rw [servedPayload_of_pend hs, storedBy_of_event (hp ▸ hs) hd hev, toNat_ofNat24 hn]
    rcases hi with rfl | rfl <;> rfl
  rw [KeepsByteOrder, hst, deliveredBy_respond_nil (putBytes_trace ..)]
  exact (contents_putBytes h hc ha hr).symm

/-- A READ or CONSUME takes what it delivers from the front of what is held. -/
theorem keepsByteOrder_delivers {s : State} {n : Nat} (h : Inv s) (hp : s.served = .c) (hc : s.constructed = true)
    (ha : n ≤ s.size.toNat) (hr : ringRequires s s.head.toNat n = true) :
    KeepsByteOrder s
      (respond .ok (BitVec.ofNat 24 n) (ringLoad s.capacity.toNat s.head.toNat n s) (takeBytes n s)) := by
  have hev : newEvents .p s
      (respond .ok (BitVec.ofNat 24 n) (ringLoad s.capacity.toNat s.head.toNat n s) (takeBytes n s)) = [] :=
    (newEvents_respond _ _ _ _ rfl).trans (if_neg (hp ▸ (by decide : Port.p ≠ .c)))
  rw [KeepsByteOrder, storedBy_of_no_event hev, deliveredBy_respond (takeBytes_trace ..),
    if_pos (show (takeBytes n s).served = .c from hp), List.append_nil]
  exact contents_takeBytes h hc ha hr

theorem Change.keepsByteOrder {s t : State} {cmd : Command} {i : Instr} (hc : Change s i t) (h : Inv s)
    (hs : s.pend.get s.served = some cmd) (hd : decode cmd.word = .ok i) (ht : t.constructed = true) :
    KeepsByteOrder s t := by
  cases hc with
  | failsCheck hk => exact keepsByteOrder_raise hs hd (isFault_of_commonCheck hk)
  | alreadyThere _ _ => exact keepsByteOrder_raise hs hd rfl
  | replies _ _ _ hv _ => exact keepsByteOrder_respond hs hd rfl rfl hv rfl
  | opens _ hc _ _ _ =>
    obtain ⟨-, hsize, -, -, -, -⟩ := h.idle hc
    refine keepsByteOrder_respond hs hd rfl rfl (fun _ hm => nomatch hm) ?_
    rw [contents_of_idle hsize, contents_of_idle (openSession_size ..)]
  | closes _ _ => cases ht
  | stores hi hp hc _ ha hr => exact keepsByteOrder_stores h hs hd hi hp hc ha hr
  | delivers _ hp hc _ ha hr => exact keepsByteOrder_delivers h hp hc ha hr
  | finishes _ _ _ _ => exact keepsByteOrder_respond hs hd rfl rfl (fun hok => nomatch hok) rfl
  | signals _ _ => exact keepsByteOrder_respond hs hd rfl rfl (fun _ _ => rfl) rfl
  | produceWaits _ _ _ _ | consumeWaits _ _ _ _ =>
    exact keepsByteOrder_of_nothing_moved (storedBy_of_no_event (newEvents_self rfl))
      (deliveredBy_of_no_event (newEvents_self rfl)) rfl

theorem storedBy_of_illegal {s t : State} {cmd : Command} {e : DecodeError} (hs : s.pend.get .p = some cmd)
    (hd : decode cmd.word = .error e) : storedBy s t = [] := by
  unfold storedBy
  simp only [hs]
  split
  · next he _ =>
    cases he
    rw [hd]
  · rfl

/-- The answer to an illegal word moves no byte. -/
theorem keepsByteOrder_illegal {s : State} {q : Port} {cmd : Command} {e : DecodeError} (hs : s.pend.get q = some cmd)
    (hd : decode cmd.word = .error e) : KeepsByteOrder s (raise .illegalCommand (serve q s)) := by
  refine keepsByteOrder_of_nothing_moved ?_ (deliveredBy_respond_nil (by simp)) (contents_recordFault ..)
  by_cases hq : Port.p = q
  · exact storedBy_of_illegal (hq ▸ hs) hd
  · exact storedBy_of_no_event ((newEvents_respond _ _ _ _ (by simp)).trans (if_neg (by simpa using hq)))

theorem newEvents_accepted (q r : Port) (w : Word) (rest : List Word) (s : State) :
    newEvents r s (accepted q w rest s) = if r = q then [.command ⟨w, s.wdata.take (payloadLen q w)⟩] else [] := by
  split
  · next hr => subst hr; exact newEvents_append (by simp [accepted])
  · next hr => exact newEvents_self (PerPort_get_set_other _ _ hr)

/-- Accepting a command moves no byte of the ring. -/
theorem keepsByteOrder_accepted {s : State} {q : Port} {w : Word} {rest : List Word} (hs : s.pend.get q = none) :
    KeepsByteOrder s (accepted q w rest (serve q s)) := by
  have hev (r : Port) := newEvents_accepted q r w rest (serve q s)
  refine keepsByteOrder_of_nothing_moved ?_ ?_ rfl
  · by_cases hq : Port.p = q
    · exact storedBy_of_empty (hq ▸ hs)
    · exact storedBy_of_no_event ((hev .p).trans (if_neg hq))
  · show deliveredBy (serve q s) _ = []
    unfold deliveredBy
    rw [hev]
    by_cases hq : Port.c = q
    · rw [if_pos hq]
    · rw [if_neg hq]

/-- Settles O50: of all turns only a store and a delivery move bytes, the one in at the tail, the other out at the head. -/
theorem eachTurnKeepsTheByteOrder : Obligations.EachTurnKeepsTheByteOrder := by
  intro u s t h hu ht
  cases act_change hu with
  | resets => cases ht
  | idles _ =>
    exact keepsByteOrder_of_nothing_moved (storedBy_of_no_event (newEvents_self rfl))
      (deliveredBy_of_no_event (newEvents_self rfl)) rfl
  | accepts hs _ _ => exact keepsByteOrder_accepted hs
  | illegal hs hd => exact keepsByteOrder_illegal hs hd
  | runs hs hd hc => exact hc.keepsByteOrder (Inv_serve h _) hs hd ht

/-! ## Runs within a session (20_memory.md section 4, 41_coordinator.md section 5) -/

/-- The streams of a schedule are those of its first turn, which stays in the session, and then those of the rest. -/
theorem streams_cons {u : Turn} {us : List Turn} {s t : State} {ins outs : List Byte}
    (h : streams (u :: us) s = some (ins, outs, t)) :
    ∃ s₁ ins₁ outs₁, act u s = .next s₁ ∧ s₁.constructed = true ∧ streams us s₁ = some (ins₁, outs₁, t)
      ∧ ins = storedBy s s₁ ++ ins₁ ∧ outs = deliveredBy s s₁ ++ outs₁ := by
  rw [streams] at h
  split at h
  · next s₁ hu =>
    split at h
    · next hc =>
      split at h
      · next ins₁ outs₁ last hrest =>
        cases h
        exact ⟨s₁, ins₁, outs₁, hu, hc, hrest, rfl, rfl⟩
      · cases h
    · cases h
  · cases h
  · cases h

/-- Settles O51, by induction on the schedule: each turn keeps the byte order. -/
theorem deliveredBytesArePrefixOfStoredBytes : Obligations.DeliveredBytesArePrefixOfStoredBytes := by
  intro us
  induction us with
  | nil =>
    intro s t ins outs _ hrun
    cases hrun
    exact List.append_nil _
  | cons u us ih =>
    intro s t ins outs h hrun
    obtain ⟨s₁, ins₁, outs₁, hu, hc, hrest, rfl, rfl⟩ := streams_cons hrun
    calc contents s ++ (storedBy s s₁ ++ ins₁)
        = deliveredBy s s₁ ++ (contents s₁ ++ ins₁) := by
          rw [← List.append_assoc, eachTurnKeepsTheByteOrder u s s₁ h hu hc, List.append_assoc]
      _ = deliveredBy s s₁ ++ outs₁ ++ contents t := by
          rw [ih s₁ t ins₁ outs₁ (act_inv h hu) hrest, List.append_assoc]

/-- Only a CONSUME that finds nothing held after PRODUCER_DONE answers END_OF_DATA (R503). -/
theorem Change.finished_of_endsOfData {s t : State} {i : Instr} (hc : Change s i t) (hp : s.served = .c)
    (hend : EndsOfData s t) : s.size = 0#24 ∧ s.producerDone = true ∧ t.consumerExited = true := by
  obtain ⟨w, hw, htrace⟩ := hend
  rw [← hp] at htrace
  have status {st val data s₁} (hs₁ : s₁.trace = s.trace) (hserved : s₁.served = s.served)
      (ht : t = respond st val data s₁) : st = .endOfData := by
    rw [ht, ← hserved] at htrace
    exact status_of_reply hs₁ hw htrace
  cases hc with
  | failsCheck hk =>
    have hst := status (recordFault_trace ..) (recordFault_served ..) rfl
    exact absurd (isFault_of_commonCheck hk) (by simp [hst, isFault])
  | replies _ _ hne _ _ => exact absurd (status rfl rfl rfl) hne
  | delivers _ _ _ _ _ _ => cases status (takeBytes_trace ..) (takeBytes_served ..) rfl
  | finishes _ _ h0 hd => exact ⟨h0, hd, rfl⟩
  | alreadyThere hh _ | opens hh _ _ _ _ | closes hh _ => cases hp.symm.trans hh
  | stores _ hpp _ _ _ _ => cases hp.symm.trans hpp
  | signals hph _ => exact absurd hph (by simp [hp])
  | produceWaits _ _ _ _ | consumeWaits _ _ _ _ => simp at htrace

/-- A turn of C that answers END_OF_DATA finds nothing held. -/
theorem act_finished_of_endsOfData {s t : State} (hu : act (.port .c) s = .next t) (hend : EndsOfData s t) :
    s.size = 0#24 ∧ s.producerDone = true ∧ t.consumerExited = true := by
  cases act_change hu with
  | idles _ =>
    obtain ⟨w, -, htrace⟩ := hend
    simp at htrace
  | accepts _ _ _ =>
    obtain ⟨w, -, htrace⟩ := hend
    simp [accepted] at htrace
  | illegal _ _ =>
    obtain ⟨w, hw, htrace⟩ := hend
    simp only [raise_trace, serve_served, serve_trace, PerPort_get_set_same, List.append_cancel_left_eq] at htrace
    cases htrace
    exact absurd hw (by decide)
  | runs _ _ hc => exact hc.finished_of_endsOfData (serve_served ..) hend

/-- Settles O52: at END_OF_DATA nothing is held, so the byte order leaves everything delivered. -/
theorem endOfDataComesAfterEveryByte : Obligations.EndOfDataComesAfterEveryByte := by
  intro us s t t' ins outs h hrun hu hend
  obtain ⟨hsize, hdone, hexited⟩ := act_finished_of_endsOfData hu hend
  have horder := deliveredBytesArePrefixOfStoredBytes us s t ins outs h hrun
  rw [contents_of_idle hsize, List.append_nil] at horder
  exact ⟨horder.symm, hdone, hexited⟩

end Sys2Proof.Machine

namespace Sys2Proof.Machine

/-! ## Two states that hold the same bytes (10_state.md R109) -/

/-- The state with other bytes listed and another draw for the unspecified ones. -/
def restored (m : Memory) (d : Nat) (s : State) : State := { s with storage := m, draw := d }

/-- Two states that differ only in the listed bytes and the draw, and hold the same bytes. -/
def Twin (s s' : State) : Prop := ∃ m d, s' = restored m d s ∧ contents s' = contents s

theorem twin_iff {s s' : State} :
    Twin s s' ↔ s' = { s with storage := s'.storage, draw := s'.draw } ∧ contents s' = contents s := by
  constructor
  · rintro ⟨m, d, rfl, hcon⟩
    exact ⟨rfl, hcon⟩
  · rintro ⟨hs, hcon⟩
    exact ⟨_, _, hs, hcon⟩

/-- Where nothing is held the bytes do not matter. -/
theorem twin_of_idle {s : State} (m : Memory) (d : Nat) (h : s.size = 0#24) : Twin s (restored m d s) :=
  ⟨m, d, rfl, (contents_of_idle (s := restored m d s) h).trans (contents_of_idle h).symm⟩

theorem recordFault_restored (m : Memory) (d : Nat) (e : Status) (s : State) :
    recordFault e (restored m d s) = restored m d (recordFault e s) := by
  rw [recordFault, recordFault, apply_ite (restored m d)]
  rfl

theorem accept_restored (m : Memory) (d : Nat) (q : Port) (s : State) :
    accept q (restored m d s) = restored m d (accept q s) := by
  cases hw : s.inbox.get q with
  | nil => rw [accept_of_nothing hw, accept_of_nothing (s := restored m d s) hw]
  | cons w rest =>
    by_cases hl : payloadLen q w ≤ s.wdata.length
    · rw [accept_of_enabled hw hl, accept_of_enabled (s := restored m d s) hw hl]
      rfl
    · rw [accept_of_short hw (Nat.lt_of_not_le hl), accept_of_short (s := restored m d s) hw (Nat.lt_of_not_le hl)]

theorem contents_accept (q : Port) (s : State) : contents (accept q s) = contents s := by
  rcases accept_cases q s with he | ⟨w, rest, -, -, he⟩
  · rw [he]
  · rw [he]
    rfl

namespace Twin

variable {s s' : State}

theorem serve (h : Twin s s') (q : Port) : Twin (serve q s) (serve q s') := by
  obtain ⟨m, d, rfl, hcon⟩ := h
  exact ⟨m, d, rfl, hcon⟩

theorem respondOn (h : Twin s s') (q : Port) (st : Status) (val : Count) (data : List Byte) :
    Twin (respondOn q st val data s) (respondOn q st val data s') := by
  obtain ⟨m, d, rfl, hcon⟩ := h
  exact ⟨m, d, rfl, hcon⟩

theorem respond (h : Twin s s') (st : Status) (val : Count) (data : List Byte) :
    Twin (respond st val data s) (respond st val data s') := by
  obtain ⟨m, d, rfl, hcon⟩ := h
  exact ⟨m, d, rfl, hcon⟩

theorem recordFault (h : Twin s s') (e : Status) : Twin (recordFault e s) (recordFault e s') := by
  obtain ⟨m, d, rfl, hcon⟩ := h
  exact ⟨m, d, recordFault_restored .., by rw [contents_recordFault, contents_recordFault, hcon]⟩

theorem raise (h : Twin s s') (e : Status) : Twin (raise e s) (raise e s') := (h.recordFault e).respond ..

theorem abort (h : Twin s s') (q : Port) : Twin (abort q s) (abort q s') := by
  have hpend : s'.pend = s.pend := by
    obtain ⟨m, d, rfl, -⟩ := h
    rfl
  unfold Machine.abort
  rw [hpend]
  split
  · exact (h.recordFault _).respondOn ..
  · exact h

theorem accept (h : Twin s s') (q : Port) : Twin (accept q s) (accept q s') := by
  obtain ⟨m, d, rfl, hcon⟩ := h
  exact ⟨m, d, accept_restored .., by rw [contents_accept, contents_accept, hcon]⟩

theorem signalled (h : Twin s s') : Twin { s with producerDone := true } { s' with producerDone := true } := by
  obtain ⟨m, d, rfl, hcon⟩ := h
  exact ⟨m, d, rfl, hcon⟩

theorem finished (h : Twin s s') : Twin { s with consumerExited := true } { s' with consumerExited := true } := by
  obtain ⟨m, d, rfl, hcon⟩ := h
  exact ⟨m, d, rfl, hcon⟩

/-- A store puts the same bytes behind the same bytes. -/
theorem putBytes (ht : Twin s s') (h : Inv s) (h' : Inv s') (hc : s.constructed = true) {n : Nat} (ha : n ≤ avail s)
    (hr : CanPut n s) : Twin (putBytes n s) (putBytes n s') := by
  obtain ⟨m, d, rfl, hcon⟩ := ht
  refine ⟨_, d, rfl, ?_⟩
  rw [contents_putBytes h hc ha hr, contents_putBytes h' hc ha hr, hcon]
  rfl

/-- A delivery takes the same bytes from the front of the same bytes. -/
theorem takeBytes (ht : Twin s s') (h : Inv s) (h' : Inv s') (hc : s.constructed = true) {n : Nat}
    (ha : n ≤ s.size.toNat) (hr : ringRequires s s.head.toNat n = true) :
    Twin (takeBytes n s) (takeBytes n s')
      ∧ ringLoad s'.capacity.toNat s'.head.toNat n s' = ringLoad s.capacity.toNat s.head.toNat n s := by
  obtain ⟨m, d, rfl, hcon⟩ := ht
  rw [contents_takeBytes h hc ha hr, contents_takeBytes h' hc ha hr] at hcon
  obtain ⟨hload, hrest⟩ := List.append_inj hcon (by rw [ringLoad_length, ringLoad_length])
  exact ⟨⟨m, d, rfl, hrest⟩, hload⟩

end Twin

/-! ## The same turn from both (20_memory.md section 6) -/

/-- Where the first result is a next state, so is the second, and the two states are twins. -/
def Follows (r r' : Result) : Prop := ∀ t, r = .next t → ∃ t', r' = .next t' ∧ Twin t t'

theorem Follows.next {t t' : State} (h : Twin t t') : Follows (.next t) (.next t') := by
  rintro _ ⟨⟩
  exact ⟨t', rfl, h⟩

/-- Twins take the same branch of a check that does not read STORAGE. -/
theorem Follows.ite {c : Prop} [Decidable c] {a b a' b' : Result} (ha : c → Follows a a') (hb : ¬c → Follows b b') :
    Follows (if c then a else b) (if c then a' else b') := by
  split
  · next h => exact ha h
  · next h => exact hb h

section

variable {s s' : State}

theorem checked_follows {i : Instr} {body : State → Result} (ht : Twin s s')
    (hb : (needsBuffer i = true → s.constructed = true) → Follows (body s) (body s')) :
    Follows (checked i s body) (checked i s' body) := by
  have hk : commonCheck s'.served i s' = commonCheck s.served i s := by
    obtain ⟨m, d, rfl, -⟩ := ht
    rfl
  unfold checked
  rw [hk]
  cases hc : commonCheck s.served i s with
  | some e => exact .next (ht.raise e)
  | none => exact hb (commonCheck_eq_none.mp hc).2

theorem storeServed_follows (ht : Twin s s') (h : Inv s) (h' : Inv s') (hc : s.constructed = true) {n : Nat}
    (ha : n ≤ avail s) : Follows (storeServed n s) (storeServed n s') := by
  intro t hstore
  obtain ⟨hr, rfl⟩ := storeServed_eq_next.mp hstore
  have hr' : CanPut n s' := by
    obtain ⟨m, d, rfl, -⟩ := ht
    exact hr
  exact ⟨_, storeServed_eq_next.mpr ⟨hr', rfl⟩, (ht.putBytes h h' hc ha hr).respond ..⟩

theorem deliverServed_follows (ht : Twin s s') (h : Inv s) (h' : Inv s') (hc : s.constructed = true) {n : Nat}
    (ha : n ≤ s.size.toNat) : Follows (deliverServed n s) (deliverServed n s') := by
  intro t hload
  obtain ⟨hr, rfl⟩ := deliverServed_eq_next.mp hload
  have hr' : ringRequires s' s'.head.toNat n = true := by
    obtain ⟨m, d, rfl, -⟩ := ht
    exact hr
  obtain ⟨htake, hdata⟩ := ht.takeBytes h h' hc ha hr
  refine ⟨_, deliverServed_eq_next.mpr ⟨hr', rfl⟩, ?_⟩
  rw [hdata]
  exact htake.respond ..

theorem writeBody_follows (ht : Twin s s') (h : Inv s) (h' : Inv s') (hc : s.constructed = true) (len : Count) :
    Follows (writeBody len s) (writeBody len s') := by
  have hav : avail s' = avail s := by
    obtain ⟨m, d, rfl, -⟩ := ht
    rfl
  unfold writeBody
  rw [hav]
  exact .ite (fun _ => .next (ht.respond ..)) fun _ =>
    .ite (fun _ => .next (ht.respond ..)) fun _ => storeServed_follows ht h h' hc (Nat.min_le_right ..)

theorem readBody_follows (ht : Twin s s') (h : Inv s) (h' : Inv s') (hc : s.constructed = true) (len : Count) :
    Follows (readBody len s) (readBody len s') := by
  have hsize : s'.size = s.size := by
    obtain ⟨m, d, rfl, -⟩ := ht
    rfl
  unfold readBody
  rw [hsize]
  exact .ite (fun _ => .next (ht.respond ..)) fun _ => deliverServed_follows ht h h' hc (Nat.min_le_right ..)

/-- An operation that answers OK with a value that does not come from STORAGE. -/
theorem query_follows {i : Instr} {val : State → Count} (ht : Twin s s') (hval : val s' = val s) :
    Follows (checked i s fun s => .next (respond .ok (val s) [] s)) (checked i s' fun s => .next (respond .ok (val s) [] s)) := by
  refine checked_follows ht fun _ => ?_
  rw [hval]
  exact .next (ht.respond ..)

theorem exec_follows (ht : Twin s s') (h : Inv s) (h' : Inv s') (i : Instr) : Follows (exec i s) (exec i s') := by
  have ht₀ := ht
  obtain ⟨m, d, rfl, -⟩ := ht₀
  cases i with
  | capacity => exact query_follows (val := (·.capacity)) ht rfl
  | size => exact query_follows (val := (·.size)) ht rfl
  | avail => exact query_follows (val := fun s => BitVec.ofNat 24 (Machine.avail s)) ht rfl
  | status => exact query_follows (val := statusValue) ht rfl
  | head => exact query_follows (val := (·.head)) ht rfl
  | tail => exact query_follows (val := (·.tail)) ht rfl
  | construct cap =>
    rw [exec, exec, execConstruct, execConstruct]
    refine checked_follows ht fun _ => ?_
    exact .ite (fun _ => .next (ht.raise _)) fun _ => .ite (fun _ => .next (ht.respond ..)) fun _ =>
      .ite (fun _ => .next (ht.respond ..)) fun _ => .next ((twin_of_idle m d rfl).respond ..)
  | destroy =>
    rw [exec, exec, execDestroy, execDestroy]
    refine checked_follows ht fun _ => .next (.respond ?_ ..)
    obtain ⟨m₁, d₁, heq, -⟩ := (ht.abort .p).abort .c
    rw [heq]
    exact twin_of_idle [] (d₁ + 1) rfl
  | write len =>
    rw [exec, exec, execWrite, execWrite]
    exact checked_follows ht fun hb => writeBody_follows ht h h' (hb rfl) len
  | read len =>
    rw [exec, exec, execRead, execRead]
    exact checked_follows ht fun hb => readBody_follows ht h h' (hb rfl) len
  | produce len =>
    rw [exec, exec, execProduce, execProduce]
    refine checked_follows ht fun hb => ?_
    refine .ite (fun hroom => .ite (fun _ => .next (ht.respond ..)) fun _ => storeServed_follows ht h h' (hb rfl) hroom)
      fun _ => .ite (fun _ => ?_) fun _ => .next ht
    cases hpol : s.params.policy with
    | truncate =>
      rw [shutdownComplete_of_truncate hpol, shutdownComplete_of_truncate (s := restored m d s) hpol]
      exact writeBody_follows ht h h' (hb rfl) len
    | drop =>
      simp only [shutdownComplete, hpol, restored]
      exact .next (ht.respond ..)
  | consume max =>
    rw [exec, exec, execConsume, execConsume]
    refine checked_follows ht fun hb => ?_
    exact .ite (fun _ => .ite (fun _ => .next (ht.finished.respond ..)) fun _ => .next ht)
      fun _ => readBody_follows ht h h' (hb rfl) max
  | signalProducerDone =>
    rw [exec, exec, execSignalProducerDone, execSignalProducerDone]
    exact checked_follows ht fun _ => .next (ht.signalled.respond ..)

theorem act_follows (ht : Twin s s') (h : Inv s) (h' : Inv s') (u : Turn) : Follows (act u s) (act u s') := by
  cases u with
  | reset =>
    obtain ⟨m, d, rfl, -⟩ := ht
    exact .next (twin_of_idle [] (d + 1) rfl)
  | port q =>
    have hpend : s'.pend = s.pend := by
      obtain ⟨m, d, rfl, -⟩ := ht
      rfl
    cases hs : s.pend.get q with
    | none =>
      rw [act_of_empty hs, act_of_empty (hpend ▸ hs)]
      exact .next ((ht.serve q).accept q)
    | some cmd =>
      cases hd : decode cmd.word with
      | error e =>
        rw [act_of_illegal hs hd, act_of_illegal (hpend ▸ hs) hd]
        exact .next ((ht.serve q).raise _)
      | ok i =>
        rw [act_of_legal hs hd, act_of_legal (hpend ▸ hs) hd]
        exact exec_follows (ht.serve q) (Inv_serve h q) (Inv_serve h' q) i

end

/-- A schedule that runs has a first turn that answers, and the rest runs from there. -/
theorem runTurns_cons {u : Turn} {us : List Turn} {s t : State} :
    runTurns (u :: us) s = some t ↔ ∃ s₁, act u s = .next s₁ ∧ runTurns us s₁ = some t := by
  rw [runTurns]
  cases act u s with
  | next s₁ => simp
  | fault _ => simp
  | refused _ => simp

/-- Twins stay twins under every schedule, by induction on it. -/
theorem runTurns_twin (us : List Turn) {s s' t : State} (ht : Twin s s') (h : Inv s) (h' : Inv s')
    (hrun : runTurns us s = some t) : ∃ t', runTurns us s' = some t' ∧ Twin t t' := by
  induction us generalizing s s' with
  | nil =>
    cases hrun
    exact ⟨s', rfl, ht⟩
  | cons u us ih =>
    obtain ⟨s₁, hu, hrest⟩ := runTurns_cons.mp hrun
    obtain ⟨s₁', hu', ht₁⟩ := act_follows ht h h' u s₁ hu
    obtain ⟨t', hrest', htwin⟩ := ih ht₁ (act_inv h hu) (act_inv h' hu') hrest
    exact ⟨t', runTurns_cons.mpr ⟨s₁', hu', hrest'⟩, htwin⟩

/-- Settles O53: the two states are twins, and every turn takes twins to twins. -/
theorem unspecifiedBytesAreNeverObserved : Obligations.UnspecifiedBytesAreNeverObserved := by
  intro us s s' t h h' hs hcon hrun
  obtain ⟨t', hrun', htwin⟩ := runTurns_twin us (twin_iff.mpr ⟨hs, hcon⟩) h h' hrun
  exact ⟨t', hrun', twin_iff.mp htwin⟩

end Sys2Proof.Machine

namespace Sys2Proof.Machine

/-! ## Answers and their shape (30_encoding.md R307, R310, R311) -/

/-- What the rules ask of an answer to an operation: SENTINEL with OUT_OF_SPACE and END_OF_DATA, 0 with every other failure,
and read data of the announced length. -/
structure LegalReply (i : Instr) (st : Status) (val : Count) (data : List Byte) : Prop where
  sentinel : st = .outOfSpace ∨ st = .endOfData → val = Sys2Proof.sentinel
  zero : st ≠ .ok → st ≠ .outOfSpace → st ≠ .endOfData → val = 0#24
  data : 4 + data.length = responseBytes i (responseWord st val)

/-- An answer without read data, which counts no bytes moved if it answers a READ or CONSUME OK. -/
theorem responseBytes_of_no_data {i : Instr} {st : Status} {val : Count}
    (h : st = .ok → answersWithData i = true → val = 0#24) : responseBytes i (responseWord st val) = 4 := by
  unfold responseBytes
  rw [stField_responseWord, valField_responseWord]
  split
  · next hd =>
    simp only [Bool.and_eq_true, beq_iff_eq] at hd
    rw [h (statusCode_inj (b := .ok) hd.2) hd.1]
    rfl
  · rfl

/-- The operations that answer with data are READ and CONSUME, which move bytes (R310). -/
theorem movesBytes_of_answersWithData {i : Instr} (h : answersWithData i = true) : movesBytes i = true := by
  cases i with
  | read _ | consume _ => rfl
  | construct _ | destroy | capacity | size | avail | write _ | produce _ | signalProducerDone | status | head | tail => cases h

/-- Every fault and failure but OUT_OF_SPACE and END_OF_DATA is answered with 0 and no data. -/
theorem legalReply_of_failure {st : Status} (i : Instr) (hok : st ≠ .ok) (h1 : st ≠ .outOfSpace) (h2 : st ≠ .endOfData) :
    LegalReply i st 0#24 [] where
  sentinel h := absurd h (not_or.mpr ⟨h1, h2⟩)
  zero _ _ _ := rfl
  data := (responseBytes_of_no_data fun h => absurd h hok).symm

theorem legalReply_of_fault {e : Status} (i : Instr) (he : isFault e = true) : LegalReply i e 0#24 [] := by
  apply legalReply_of_failure
  all_goals rintro rfl; cases he

theorem legalReply_of_ok {i : Instr} {val : Count} (h : answersWithData i = true → val = 0#24) :
    LegalReply i .ok val [] where
  sentinel h := by simp at h
  zero h := absurd rfl h
  data := (responseBytes_of_no_data fun _ => h).symm

/-- What an operation does to the ports: it answers the port that issued it, on which it may also wait, and only DESTROY does
more. -/
inductive Reply (s : State) (i : Instr) : State → Prop where
  | waits (hg : guardOf s.served i s = false) : Reply s i s
  | answers {st : Status} {val : Count} {data : List Byte} {s₁ : State} (hpend : s₁.pend = s.pend)
      (htrace : s₁.trace = s.trace) (hserved : s₁.served = s.served) (hparams : s₁.params = s.params)
      (hreply : LegalReply i st val data) : Reply s i (respond st val data s₁)
  | closes (hi : i = .destroy) (hp : s.served = .h) (hc : s.constructed = true) :
      Reply s i (respond .ok 0#24 [] (closeSession (abort .c (abort .p s))))

theorem reply_raise {e : Status} (i : Instr) (s : State) (he : isFault e = true) : Reply s i (raise e s) :=
  .answers (recordFault_pend ..) (recordFault_trace ..) (recordFault_served ..) (recordFault_params ..)
    (legalReply_of_fault i he)

theorem Change.reply {i : Instr} {s t : State} (hc : Change s i t) : Reply s i t := by
  cases hc with
  | failsCheck hk => exact reply_raise i s (isFault_of_commonCheck hk)
  | alreadyThere _ _ => exact reply_raise _ s rfl
  | @replies _ st val _ _ he hv hs =>
    refine .answers rfl rfl rfl rfl ⟨?_, fun hok hfull _ => (hs hok).trans (if_neg hfull), ?_⟩
    · rintro (rfl | rfl)
      · exact hs (by decide)
      · exact absurd rfl he
    · exact (responseBytes_of_no_data fun hok hd => hv hok (movesBytes_of_answersWithData hd)).symm
  | opens _ _ _ _ _ => exact .answers rfl rfl rfl rfl (legalReply_of_ok fun h => nomatch h)
  | closes hp hc => exact .closes rfl hp hc
  | stores hi _ _ _ _ _ => exact .answers rfl rfl rfl rfl (legalReply_of_ok fun h => by rcases hi with rfl | rfl <;> cases h)
  | @delivers _ _ n hi _ _ _ ha _ =>
    refine .answers rfl rfl rfl rfl ⟨fun h => by simp at h, fun h => absurd rfl h, ?_⟩
    have hn : n < 16777216 := Nat.lt_of_le_of_lt ha s.size.isLt
    rw [ringLoad_length, responseBytes, stField_responseWord, valField_responseWord, toNat_ofNat24 hn]
    rcases hi with rfl | rfl <;> rfl
  | finishes _ _ _ _ =>
    exact .answers rfl rfl rfl rfl ⟨fun _ => rfl, fun _ _ h => absurd rfl h, rfl⟩
  | signals _ _ => exact .answers rfl rfl rfl rfl (legalReply_of_ok fun _ => rfl)
  | produceWaits hp hc hd ha => exact .waits (by rw [hp]; exact guardOf_produce_eq_false.mpr ⟨hc, hd, ha⟩)
  | consumeWaits hp hc hd h0 =>
    exact .waits (by rw [hp]; exact guardOf_consume_eq_false.mpr ⟨hc, hd, toNat_eq_zero_iff.mpr h0⟩)

theorem Reply.params {i : Instr} {s t : State} (h : Reply s i t) : t.params = s.params := by
  cases h with
  | waits _ => rfl
  | answers _ _ _ hparams _ => exact hparams
  | closes _ _ _ => simp

/-- An operation whose guard holds is answered: one response on its port, and an empty slot. -/
theorem Reply.answered {i : Instr} {s t : State} (h : Reply s i t) (hg : guardOf s.served i s = true) :
    t.pend.get s.served = none ∧ ∃ r, t.trace.get s.served = s.trace.get s.served ++ [.response r] := by
  cases h with
  | waits h => simp [hg] at h
  | answers _ htrace hserved _ _ =>
    rw [respond_pend, respond_trace, hserved, htrace]
    exact ⟨PerPort_get_set_same .., _, PerPort_get_set_same ..⟩
  | closes _ hp _ => simp [hp, abort_trace]

/-- An operation leaves the other ports alone, or ends the session and aborts what is pending there (40_ringbuffer.md R408). -/
theorem Reply.other_port {i : Instr} {s t : State} {r : Port} (h : Reply s i t) (hr : r ≠ s.served) :
    (t.pend.get r = s.pend.get r ∧ t.trace.get r = s.trace.get r)
      ∨ (i = .destroy ∧ s.served = .h ∧ t.constructed = false ∧ holdsBlocking (s.pend.get r) = true
          ∧ t.pend.get r = none ∧ t.trace.get r = s.trace.get r ++ [.response ⟨0x80000000#32, []⟩]) := by
  cases h with
  | waits _ => exact .inl ⟨rfl, rfl⟩
  | answers hpend htrace hserved _ _ =>
    rw [respond_pend, respond_trace, hserved, hpend, htrace]
    exact .inl ⟨PerPort_get_set_other _ _ hr, PerPort_get_set_other _ _ hr⟩
  | closes hi hp _ =>
    rw [hp] at hr
    cases hb : holdsBlocking (s.pend.get r) with
    | false => exact .inl (by cases r <;> simp_all [abort_pend, abort_trace])
    | true => exact .inr ⟨hi, hp, rfl, rfl, by cases r <;> simp_all [abort_pend, abort_trace]⟩

theorem Reply.trace_grows {i : Instr} {s t : State} (h : Reply s i t) (q : Port) :
    ∃ es, t.trace.get q = s.trace.get q ++ es := by
  by_cases hq : q = s.served
  · subst hq
    cases hg : guardOf s.served i s with
    | true =>
      obtain ⟨-, r, hr⟩ := h.answered hg
      exact ⟨_, hr⟩
    | false =>
      cases h with
      | waits _ => exact ⟨[], (List.append_nil _).symm⟩
      | answers _ htrace hserved _ _ =>
        rw [respond_trace, hserved, htrace]
        exact ⟨_, PerPort_get_set_same ..⟩
      | closes hi _ _ => subst hi; cases hg
  · rcases h.other_port hq with ⟨-, hsame⟩ | ⟨-, -, -, -, -, hr⟩
    · exact ⟨[], by rw [hsame, List.append_nil]⟩
    · exact ⟨_, hr⟩

/-! ## The other ports in a turn (60_exceptions.md sections 3 and 5) -/

/-- What a turn of a port does to another: nothing, or a DESTROY ends the session and aborts the command pending there. -/
theorem act_other_port {q r : Port} {s t : State} (hu : act (.port q) s = .next t) (hr : r ≠ q) :
    (t.pend.get r = s.pend.get r ∧ t.trace.get r = s.trace.get r)
      ∨ (Completing (.port q) .h .destroy s ∧ t.constructed = false ∧ holdsBlocking (s.pend.get r) = true
          ∧ t.pend.get r = none ∧ t.trace.get r = s.trace.get r ++ [.response ⟨0x80000000#32, []⟩]) := by
  cases act_change hu with
  | idles _ => exact .inl ⟨rfl, rfl⟩
  | accepts _ _ _ => exact .inl ⟨PerPort_get_set_other _ _ hr, PerPort_get_set_other _ _ hr⟩
  | illegal _ _ =>
    rw [raise_pend, raise_trace]
    exact .inl ⟨PerPort_get_set_other _ _ hr, PerPort_get_set_other _ _ hr⟩
  | runs hs hd hc =>
    refine (hc.reply.other_port (s := serve q s) hr).imp_right ?_
    rintro ⟨rfl, hq, hrest⟩
    obtain rfl : q = .h := hq
    exact ⟨⟨rfl, _, hs, hd⟩, hrest⟩

/-- Settles O43: beyond the port it answers, an operation touches only what DESTROY aborts. -/
theorem otherPortsAreTouchedOnlyByAborting : Obligations.OtherPortsAreTouchedOnlyByAborting := by
  intro q r s t hu hr
  refine (act_other_port hu hr).imp_right ?_
  rintro ⟨hrun, -, hb, hpend, htrace⟩
  exact ⟨Turn.port.inj hrun.1, hrun, hb, hpend, htrace⟩

/-! ## Observations (20_memory.md R224) -/

theorem newEvents_spec {q : Port} {s t : State} (h : ∃ es, t.trace.get q = s.trace.get q ++ es) :
    t.trace.get q = s.trace.get q ++ newEvents q s t := by
  obtain ⟨es, hes⟩ := h
  rw [newEvents_append hes, hes]

/-- Settles O45: a turn adds to an observation what it accepts or answers, and nothing writes the parameters. -/
theorem observationsOnlyGrow : Obligations.ObservationsOnlyGrow := by
  intro u s t hu
  suffices h : t.params = s.params ∧ ∀ q, ∃ es, t.trace.get q = s.trace.get q ++ es from
    ⟨h.1, fun q => newEvents_spec (h.2 q)⟩
  have grows (q r : Port) (es : List Event) :
      ∃ es', (s.trace.set q (s.trace.get q ++ es)).get r = s.trace.get r ++ es' := by
    rw [PerPort_get_set]
    split
    · next hr => exact ⟨es, hr ▸ rfl⟩
    · exact ⟨[], (List.append_nil _).symm⟩
  cases act_change hu with
  | resets | idles _ => exact ⟨rfl, fun _ => ⟨[], (List.append_nil _).symm⟩⟩
  | accepts _ _ _ => exact ⟨rfl, fun r => grows _ r _⟩
  | illegal _ _ => exact ⟨raise_params .., fun r => by rw [raise_trace]; exact grows _ r _⟩
  | runs _ _ hc => exact ⟨hc.reply.params, hc.reply.trace_grows⟩

/-- The numbers of a response word (R307). -/
theorem responseWord_fields (st : Status) (val : Count) :
    (responseWord st val).toNat / 2 ^ 28 = (statusCode st).toNat ∧ (responseWord st val).toNat / 2 ^ 24 % 16 = 0
      ∧ (responseWord st val).toNat % 2 ^ 24 = val.toNat := by
  have hval := val.isLt
  rw [responseWord_toNat]
  omega

theorem statusCode_le (st : Status) : (statusCode st).toNat ≤ 9 := by
  cases st <;> decide

/-- The shape of an answer in the numbers of its word. -/
theorem LegalReply.numbers {i : Instr} {st : Status} {val : Count} {data : List Byte} (h : LegalReply i st val data) :
    ((statusCode st).toNat = 1 ∨ (statusCode st).toNat = 2 → val.toNat = 0xFFFFFF)
      ∧ (3 ≤ (statusCode st).toNat → val.toNat = 0) := by
  refine ⟨fun hst => ?_, fun hst => ?_⟩
  · rw [h.sentinel (by cases st <;> simp_all [statusCode])]
    rfl
  · rw [h.zero]
    · rfl
    all_goals rintro rfl; revert hst; decide

/-- The response an operation sends: its own legal answer, or an ABORTED of DESTROY's. -/
theorem Reply.response {i : Instr} {s t : State} {q : Port} {r : Response} (h : Reply s i t)
    (hr : .response r ∈ newEvents q s t) :
    (q = s.served ∧ ∃ st val data, r = ⟨responseWord st val, data⟩ ∧ LegalReply i st val data)
      ∨ (holdsBlocking (s.pend.get q) = true ∧ r = ⟨responseWord .aborted 0#24, []⟩) := by
  cases h with
  | waits _ => rw [newEvents_self rfl] at hr; cases hr
  | @answers st val data s₁ _ htrace hserved _ hreply =>
    rw [newEvents_respond _ _ _ _ (congrArg (·.get q) htrace), hserved] at hr
    split at hr
    · next hq =>
      obtain rfl : r = ⟨responseWord st val, data⟩ := by simpa using hr
      exact .inl ⟨hq, st, val, data, rfl, hreply⟩
    · cases hr
  | closes hi hp _ =>
    have hev := newEvents_destroy q s
    rw [serve_eq_self hp] at hev
    rw [hev] at hr
    split at hr
    · next hq =>
      obtain rfl : r = ⟨0#32, []⟩ := by simpa using hr
      exact .inl ⟨hq.trans hp.symm, .ok, 0#24, [], rfl, legalReply_of_ok fun _ => rfl⟩
    · split at hr
      · next hb =>
        obtain rfl : r = ⟨0x80000000#32, []⟩ := by simpa using hr
        exact .inr ⟨hb, rfl⟩
      · cases hr

theorem holdsBlocking_iff {slot : Option Command} :
    holdsBlocking slot = true
      ↔ ∃ cmd len, slot = some cmd ∧ (decode cmd.word = .ok (.produce len) ∨ decode cmd.word = .ok (.consume len)) := by
  unfold holdsBlocking
  split
  case h_1 => simp
  case h_2 cmd =>
    split
    case h_1 len hd => simp [hd]
    case h_2 len hd => simp [hd]
    case h_3 hp hc => simpa using fun len => ⟨fun h => hp len h, fun h => hc len h⟩

/-- A response to a pending command: the legal answer to an operation, or ILLEGAL_COMMAND to an illegal word. -/
inductive Answers (cmd : Command) : Response → Prop where
  | legal {i : Instr} {st : Status} {val : Count} {data : List Byte} (hd : decode cmd.word = .ok i)
      (hreply : LegalReply i st val data) : Answers cmd ⟨responseWord st val, data⟩
  | illegal {e : DecodeError} (hd : decode cmd.word = .error e) : Answers cmd ⟨responseWord .illegalCommand 0#24, []⟩

/-- Every response answers the command that was pending on its port. -/
theorem act_response {u : Turn} {q : Port} {s t : State} {r : Response} (hu : act u s = .next t)
    (hr : .response r ∈ newEvents q s t) : ∃ cmd, s.pend.get q = some cmd ∧ Answers cmd r := by
  cases act_change hu with
  | resets | idles _ => simp [newEvents] at hr
  | @accepts _ _ rest _ _ _ => exact absurd hr (not_response_of_accepted (rest := rest) (s := serve _ s))
  | @illegal q' cmd _ hs hd =>
    have hev := newEvents_respond (s := s) q .illegalCommand 0#24 [] (s₁ := recordFault .illegalCommand (serve q' s)) (by simp)
    rw [raise, hev] at hr
    split at hr
    · next hq =>
      obtain rfl : q = q' := by simpa using hq
      obtain rfl : r = ⟨responseWord .illegalCommand 0#24, []⟩ := by simpa using hr
      exact ⟨cmd, hs, .illegal hd⟩
    · cases hr
  | @runs q' cmd i _ hs hd hc =>
    rcases hc.reply.response hr with ⟨hq, st, val, data, rfl, hreply⟩ | ⟨hb, rfl⟩
    · obtain rfl : q = q' := hq
      exact ⟨cmd, hs, .legal hd hreply⟩
    · obtain ⟨cmd', len, hs', hd' | hd'⟩ := holdsBlocking_iff.mp hb
      · exact ⟨cmd', hs', .legal hd' (legalReply_of_fault _ rfl)⟩
      · exact ⟨cmd', hs', .legal hd' (legalReply_of_fault _ rfl)⟩

/-- Settles O44: every response is a legal answer to its port's operation, or ILLEGAL_COMMAND to an illegal word. -/
theorem everyResponseHasALegalShape : Obligations.EveryResponseHasALegalShape := by
  intro u q s t r hu hr st val
  obtain ⟨cmd, hs, ha⟩ := act_response hu hr
  cases ha with
  | @legal i status value data hd hreply =>
    obtain ⟨hst, hrsv, hval⟩ := responseWord_fields status value
    obtain ⟨hsentinel, hzero⟩ := hreply.numbers
    have hdata : ∀ j, decode cmd.word = .ok j → 4 + data.length = responseBytes j (responseWord status value) := by
      intro j hj
      rw [hd] at hj
      cases hj
      exact hreply.data
    refine ⟨hst.trans_le (statusCode_le status), hrsv, ?_, ?_, cmd, hs, hdata, fun e he => by simp [hd] at he⟩
    · rwa [← hst, ← hval] at hsentinel
    · rwa [← hst, ← hval] at hzero
  | illegal hd =>
    exact ⟨by decide, by decide, by decide, by decide, cmd, hs, fun i hi => by simp [hd] at hi,
      fun _ _ => ⟨rfl, by decide⟩⟩

end Sys2Proof.Machine

namespace Sys2Proof.Machine

/-! ## Operations whose guard is false (20_memory.md R211) -/

theorem guardOf_produce_of_ne_p {q : Port} (hq : q ≠ .p) (len : Count) (s : State) : guardOf q (.produce len) s = true := by
  have hk : commonCheck q (.produce len) s = some .illegalCommand := if_pos (by simpa [portRights] using hq)
  simp [guardOf, hk]

theorem guardOf_consume_of_ne_c {q : Port} (hq : q ≠ .c) (max : Count) (s : State) : guardOf q (.consume max) s = true := by
  have hk : commonCheck q (.consume max) s = some .illegalCommand := if_pos (by simpa [portRights] using hq)
  simp [guardOf, hk]

/-- CONSUME on C with a buffer goes by what is held and by PRODUCER_DONE (R503). -/
theorem exec_consume_of_pass {s : State} {max : Count} (hp : s.served = .c) (hc : s.constructed = true) :
    exec (.consume max) s
      = if s.size = 0#24 then
          if s.producerDone then .next (respond .endOfData sentinel [] { s with consumerExited := true }) else .next s
        else readBody max s := by
  rw [exec, execConsume, checked_of_pass (by simp [hp, portRights]) fun _ => hc]

/-- An operation whose guard is false is a PRODUCE on P or a CONSUME on C, and waits. -/
theorem exec_of_guard_false {i : Instr} {s : State} (h : guardOf s.served i s = false) : exec i s = .next s := by
  cases i with
  | produce len =>
    have hp : s.served = .p := by
      by_contra hp
      simp [guardOf_produce_of_ne_p hp] at h
    rw [hp] at h
    obtain ⟨hc, hd, ha⟩ := guardOf_produce_eq_false.mp h
    rw [exec_produce_without_room hp hc ha, if_neg (by simp [hd])]
  | consume max =>
    have hp : s.served = .c := by
      by_contra hp
      simp [guardOf_consume_of_ne_c hp] at h
    rw [hp] at h
    obtain ⟨hc, hd, h0⟩ := guardOf_consume_eq_false.mp h
    rw [exec_consume_of_pass hp hc, if_pos (toNat_eq_zero_iff.mp h0), if_neg (by simp [hd])]
  | construct _ | destroy | capacity | size | avail | write _ | read _ | signalProducerDone | status | head | tail => cases h

/-- A port whose pending command waits changes nothing in its turn. -/
theorem act_of_waiting {q : Port} {s : State} (hs : s.pend.get q ≠ none) (h : completeEnabled q s = false) :
    act (.port q) s = .next (serve q s) := by
  obtain ⟨cmd, hcmd⟩ := Option.ne_none_iff_exists'.mp hs
  cases hd : decode cmd.word with
  | error e => simp [completeEnabled_of_illegal hcmd hd] at h
  | ok i =>
    rw [← completeEnabled_serve q q, completeEnabled_of_legal (s := serve q s) hcmd hd] at h
    rw [act_of_legal hcmd hd, exec_of_guard_false h]

/-- A port whose pending command's guard holds answers it in its turn. -/
theorem act_answers {q : Port} {s t : State} (hu : act (.port q) s = .next t) (h : completeEnabled q s = true) :
    t.pend.get q = none ∧ ∃ r, t.trace.get q = s.trace.get q ++ [.response r] := by
  cases act_change hu with
  | idles hs | accepts hs _ _ => simp [completeEnabled, hs] at h
  | illegal _ _ => simp
  | runs hs hd hc =>
    rw [← completeEnabled_serve q q, completeEnabled_of_legal (s := serve q s) hs hd] at h
    exact hc.reply.answered h

/-- Settles O8: an operation whose guard holds is answered, one whose guard is false waits. -/
theorem enabledCommandsAreAnsweredInTheirTurn : Obligations.EnabledCommandsAreAnsweredInTheirTurn := by
  intro s q h hs
  refine ⟨fun hg => ?_, act_of_waiting hs⟩
  obtain ⟨t, hu⟩ := act_next h (.port q)
  obtain ⟨hpend, r, hr⟩ := act_answers hu hg
  exact ⟨t, r, hu, hpend, hr⟩

/-! ## PRODUCE and CONSUME by their branches (41_coordinator.md R501, R503) -/

/-- Settles O24: without room the guard is false and the rule's last branch is taken. -/
theorem produceWaitsForRoom : Obligations.ProduceWaitsForRoom := by
  intro s len hc hp hd ha
  have hg : guardOf .p (.produce len) s = false := guardOf_produce_eq_false.mpr ⟨hc, hd, ha⟩
  exact ⟨hg, exec_of_guard_false (hp ▸ hg)⟩

theorem exec_produce_with_room {s : State} {len : Count} (hp : s.served = .p) (hc : s.constructed = true)
    (hroom : len.toNat ≤ avail s) :
    exec (.produce len) s = if len = 0#24 then .next (respond .ok 0#24 [] s) else storeServed len.toNat s := by
  rw [exec, execProduce, checked_of_pass (by simp [hp, portRights]) fun _ => hc, if_pos hroom]

/-- Settles O23: with room for it the whole chunk is one store. -/
theorem produceStoresTheWholeChunk : Obligations.ProduceStoresTheWholeChunk := by
  intro s len cmd h hc hp hs hd hroom
  have hexec := exec_produce_with_room hp hc hroom
  refine ⟨fun h0 => ?_, fun h0 => ?_⟩
  · rw [hexec, if_pos (toNat_eq_zero_iff.mp h0), respond_eq_answered, hp]
    rfl
  · have hlen : cmd.payload.length = len.toNat := decode_payload h hs hd
    rw [hexec, if_neg (mt toNat_eq_zero_iff.mpr h0)]
    exact storeServed_eq_storedAndAnswered h hc hp hs (Nat.one_le_iff_ne_zero.mpr h0) hroom (Nat.le_of_eq hlen.symm)

/-- Settles O26: with bytes held CONSUME runs READ's rule, and with none PRODUCER_DONE decides. -/
theorem consumeDeliversEndsOrWaits : Obligations.ConsumeDeliversEndsOrWaits := by
  refine ⟨fun max => ⟨decode_ofNat (op := 9) max (by decide), illegalOffPorts _, noBufferOnPorts rfl⟩, ?_⟩
  intro s max h hc hp
  have held (hsize : s.size.toNat ≠ 0) : exec (.consume max) s = readBody max s :=
    (exec_consume_of_pass hp hc).trans (if_neg (mt toNat_eq_zero_iff.mpr hsize))
  refine ⟨fun hsize h0 => ?_, fun hsize h0 => ?_, fun h0 hd => ⟨?_, ?_⟩, fun h0 hd => ?_⟩
  · rw [held hsize, readBody_of_nothing (.inl h0), hp]
  · rw [held hsize, readBody_of_some h0 hsize]
    exact deliverServed_eq_deliveredAndAnswered h hc hp (by omega) (Nat.min_le_right ..)
  · refine ⟨responseWord .endOfData sentinel, by decide, ?_⟩
    rw [exec_consume_of_pass hp hc, if_pos (toNat_eq_zero_iff.mp h0), if_pos hd, ← hp]
    rfl
  · exact session_finished hc hd
  · have hg : guardOf .c (.consume max) s = false := guardOf_consume_eq_false.mpr ⟨hc, hd, h0⟩
    exact ⟨hg, exec_of_guard_false (hp ▸ hg)⟩

/-! ## Guards under the turns of other ports (20_memory.md section 5) -/

/-- A command that is no PRODUCE or CONSUME never waits. -/
theorem completeEnabled_of_not_blocking {q : Port} {s : State} (hs : s.pend.get q ≠ none)
    (h : holdsBlocking (s.pend.get q) = false) : completeEnabled q s = true := by
  obtain ⟨cmd, hcmd⟩ := Option.ne_none_iff_exists'.mp hs
  have hno : ∀ len, decode cmd.word ≠ .ok (.produce len) ∧ decode cmd.word ≠ .ok (.consume len) := by
    intro len
    refine not_or.mp fun hd => ?_
    rw [holdsBlocking_iff.mpr ⟨cmd, len, hcmd, hd⟩] at h
    cases h
  cases hd : decode cmd.word with
  | error e => exact completeEnabled_of_illegal hcmd hd
  | ok i =>
    rw [completeEnabled_of_legal hcmd hd]
    cases i with
    | produce len => exact absurd hd (hno len).1
    | consume len => exact absurd hd (hno len).2
    | construct _ | destroy | capacity | size | avail | write _ | read _ | signalProducerDone | status | head | tail => rfl

theorem pend_ne_none_of_completeEnabled {q : Port} {s : State} (h : completeEnabled q s = true) : s.pend.get q ≠ none := by
  intro hs
  simp [completeEnabled, hs] at h

/-- What a port's guard can see of a turn in which the session lasts: PRODUCER_DONE is not cleared, the free space that P waits
for does not shrink, and the data that C waits for is not taken. -/
structure GuardKept (q : Port) (s t : State) : Prop where
  constructed : t.constructed = true
  done : s.producerDone = true → t.producerDone = true
  room : q = .p → avail s ≤ avail t
  held : q = .c → 0 < s.size.toNat → 0 < t.size.toNat

theorem guardKept_of_same {q : Port} {s t : State} (h : t.constructed = true) (hd : t.producerDone = s.producerDone)
    (hc : t.capacity = s.capacity) (hs : t.size = s.size) : GuardKept q s t :=
  ⟨h, hd.trans, fun _ => by rw [avail, avail, hc, hs], fun _ => hs ▸ id⟩

theorem GuardKept.completeEnabled {q : Port} {s t : State} (h : GuardKept q s t) (hc : s.constructed = true)
    (hpend : t.pend.get q = s.pend.get q) (hg : completeEnabled q s = true) : completeEnabled q t = true := by
  obtain ⟨cmd, hs⟩ := Option.ne_none_iff_exists'.mp (pend_ne_none_of_completeEnabled hg)
  cases hd : decode cmd.word with
  | error e => exact completeEnabled_of_illegal (hpend.trans hs) hd
  | ok i =>
    rw [completeEnabled_of_legal hs hd] at hg
    rw [completeEnabled_of_legal (hpend.trans hs) hd]
    exact guardOf_mono hc h.constructed h.done h.room h.held hg

/-- DESTROY empties another port's slot that holds a PRODUCE or CONSUME. -/
theorem pend_of_destroyed {q : Port} {s : State} (hp : s.served = .h) (hq : q ≠ .h) (hb : holdsBlocking (s.pend.get q) = true) :
    (respond .ok 0#24 [] (closeSession (abort .c (abort .p s)))).pend.get q = none := by
  cases q with
  | p | c => simp [hp, hb, abort_pend]
  | h => exact absurd rfl hq

/-- An operation on another port keeps what a guard can see, or is a DESTROY that ends the session and aborts. -/
theorem Change.guardKept {i : Instr} {s t : State} {q : Port} (h : Change s i t) (hc : s.constructed = true)
    (hq : q ≠ s.served) :
    GuardKept q s t ∨ (t.constructed = false ∧ (holdsBlocking (s.pend.get q) = true → t.pend.get q = none)) := by
  cases h with
  | failsCheck _ | alreadyThere _ _ => exact .inl (guardKept_of_same (by simp [hc]) (by simp) (by simp) (by simp))
  | replies _ _ _ _ _ | finishes _ _ _ _ | produceWaits _ _ _ _ | consumeWaits _ _ _ _ =>
    exact .inl (guardKept_of_same hc rfl rfl rfl)
  | signals _ _ => exact .inl ⟨hc, fun _ => rfl, fun _ => Nat.le_refl _, fun _ => id⟩
  | opens _ hnone _ _ _ => simp [hc] at hnone
  | closes hp _ => exact .inr ⟨rfl, pend_of_destroyed hp (hp ▸ hq)⟩
  | @stores _ _ n _ hp _ _ ha _ =>
    refine .inl ⟨hc, id, fun h => absurd (h.trans hp.symm) hq, fun _ hpos => ?_⟩
    have hcap : s.capacity.toNat < 16777216 := s.capacity.isLt
    unfold avail at ha
    rw [respond_size, putBytes_size, toNat_ofNat24 (by omega)]
    omega
  | @delivers _ _ n _ hp _ _ _ _ =>
    refine .inl ⟨hc, id, fun _ => ?_, fun h => absurd (h.trans hp.symm) hq⟩
    have hsize : s.size.toNat < 16777216 := s.size.isLt
    unfold avail
    rw [respond_size, respond_capacity, takeBytes_size, takeBytes_capacity, toNat_ofNat24 (by omega)]
    omega

theorem act_guardKept {q r : Port} {s t : State} (hu : act (.port r) s = .next t) (hc : s.constructed = true) (hq : q ≠ r) :
    GuardKept q s t ∨ (t.constructed = false ∧ (holdsBlocking (s.pend.get q) = true → t.pend.get q = none)) := by
  cases act_change hu with
  | idles _ | accepts _ _ _ => exact .inl (guardKept_of_same hc rfl rfl rfl)
  | illegal _ _ => exact .inl (guardKept_of_same (by simp [hc]) (by simp) (by simp) (by simp))
  | runs _ _ h =>
    exact (h.guardKept (s := serve r s) hc hq).imp_left fun ⟨hcon, hd, hroom, hheld⟩ => ⟨hcon, hd, hroom, hheld⟩

/-- A guard that holds in a session: after another port's turn the command is still pending and its guard holds, or DESTROY has
answered it; and where DESTROY has left it pending, it is a command that never waits. -/
theorem act_keeps_enabled {q r : Port} {s t : State} (hu : act (.port r) s = .next t) (hq : q ≠ r) (hc : s.constructed = true)
    (hg : completeEnabled q s = true) :
    (t.pend.get q = s.pend.get q ∧ completeEnabled q t = true
        ∧ (t.constructed = true ∨ holdsBlocking (s.pend.get q) = false))
      ∨ (t.pend.get q = none ∧ t.constructed = false) := by
  rcases act_other_port hu hq with ⟨hpend, -⟩ | ⟨-, hclosed, -, hnone, -⟩
  · refine .inl ⟨hpend, ?_⟩
    have hs := pend_ne_none_of_completeEnabled hg
    rcases act_guardKept hu hc hq with hk | ⟨-, habort⟩
    · exact ⟨hk.completeEnabled hc hpend hg, .inl hk.constructed⟩
    · have hb : holdsBlocking (s.pend.get q) = false := by
        by_contra hb
        exact hs (hpend.symm.trans (habort (by simpa using hb)))
      exact ⟨completeEnabled_of_not_blocking (hpend ▸ hs) (hpend ▸ hb), .inr hb⟩
  · exact .inr ⟨hnone, hclosed⟩

/-- Settles O46: another port's turn keeps the slot and what its guard can see, unless DESTROY ends the session; a command that
DESTROY does not abort never waits. -/
theorem guardsStayTrue : Obligations.GuardsStayTrue := by
  intro u q s t hc hg hne hreset hu
  cases u with
  | reset => exact absurd rfl hreset
  | port r =>
    have hq : q ≠ r := fun h => hne (h ▸ rfl)
    exact (act_keeps_enabled hu hq hc hg).imp_left fun ⟨hpend, hen, _⟩ => ⟨hpend, hen⟩

/-! ## Fair runs (20_memory.md R214) -/

/-- A pending command that no other port's turn can make wait: its guard holds, and it holds in a session or for good. -/
def Ready (q : Port) (s : State) : Prop :=
  completeEnabled q s = true ∧ (s.constructed = true ∨ holdsBlocking (s.pend.get q) = false)

/-- A ready command is answered in its port's turn, and is answered or stays ready in every other. -/
theorem act_keeps_ready {u : Turn} {q : Port} {s t : State} (hu : act u s = .next t) (hreset : u ≠ .reset) (h : Ready q s) :
    t.pend.get q = none ∨ (u ≠ .port q ∧ Ready q t) := by
  obtain ⟨hg, hlasts⟩ := h
  cases u with
  | reset => exact absurd rfl hreset
  | port r =>
    by_cases hq : q = r
    · subst hq
      exact .inl (act_answers hu hg).1
    · have hne : Turn.port r ≠ .port q := fun h => hq (Turn.port.inj h).symm
      rcases hlasts with hc | hb
      · rcases act_keeps_enabled hu hq hc hg with ⟨hpend, hen, hlasts⟩ | ⟨hnone, -⟩
        · exact .inr ⟨hne, hen, hpend ▸ hlasts⟩
        · exact .inl hnone
      · rcases act_other_port hu hq with ⟨hpend, -⟩ | ⟨-, -, -, hnone, -⟩
        · have hs := pend_ne_none_of_completeEnabled hg
          exact .inr ⟨hne, completeEnabled_of_not_blocking (hpend ▸ hs) (hpend ▸ hb), .inr (hpend ▸ hb)⟩
        · exact .inl hnone

/-- Settles O47: a command that were never answered would stay ready for ever, so its port would have a turn, which answers it. -/
theorem fairRunsAnswerEnabledCommands : Obligations.FairRunsAnswerEnabledCommands := by
  intro turnAt stateAt q hrun hfair hreset hc hg
  by_contra hnever
  push Not at hnever
  have step (n : Nat) (h : Ready q (stateAt n)) : turnAt n ≠ .port q ∧ Ready q (stateAt (n + 1)) :=
    (act_keeps_ready (hrun n) (hreset n) h).resolve_left (hnever (n + 1))
  have ready : ∀ n, Ready q (stateAt n) := by
    intro n
    induction n with
    | zero => exact ⟨hg, .inl hc⟩
    | succ n ih => exact (step n ih).2
  obtain ⟨n, -, hn⟩ := hfair q 0 fun n _ => (ready n).1
  exact (step n (ready n)).1 hn

/-! ## Stuck blocks (70_reset_and_hazards.md R822, R818) -/

/-- A port that can neither accept nor complete only takes its turn. -/
theorem act_of_stuck {q : Port} {s : State} (ha : acceptEnabled q s = false) (hc : completeEnabled q s = false) :
    act (.port q) s = .next (serve q s) := by
  cases hs : s.pend.get q with
  | none => rw [act_of_empty hs, accept_of_disabled (s := serve q s) hs ha]
  | some cmd => exact act_of_waiting (by simp [hs]) hc

/-- Settles O49, by induction on the schedule: each turn changes only the served mark, which enables nothing. -/
theorem stuckBlocksStayStuck : Obligations.StuckBlocksStayStuck := by
  intro s qs
  induction qs generalizing s with
  | nil => exact fun h => ⟨s, rfl, rfl, h⟩
  | cons q qs ih =>
    intro h
    obtain ⟨t, hrun, hsame, ht⟩ := ih (serve q s) (h.serve q)
    exact ⟨t, runTurns_cons.mpr ⟨_, act_of_stuck (h.2 q).1 (h.2 q).2, hrun⟩, hsame, ht⟩

end Sys2Proof.Machine

namespace Sys2Proof.Machine

/-! ## Accepting (20_memory.md R211, 30_encoding.md R309) -/

theorem wellFormed_of_length {q : Port} {i : Instr} {bytes : List Byte} (h : bytes.length = payloadOf q i) :
    WellFormed q i bytes = true := by
  have empty (h0 : bytes.length = 0) : bytes.isEmpty = true := List.isEmpty_iff_length_eq_zero.mpr h0
  cases i with
  | write _ | produce _ =>
    cases q with
    | p => exact beq_iff_eq.mpr h
    | c | h => exact empty h
  | construct _ | destroy | capacity | size | avail | read _ | consume _ | signalProducerDone | status | head | tail =>
    exact empty h

/-- Settles O7: the payload is the part of the stream that the word's length calls for. -/
theorem acceptTakesTheWordAndItsWholePayload : Obligations.AcceptTakesTheWordAndItsWholePayload := by
  intro s q w rest hs hw
  refine ⟨fun hl => ?_, fun hl => ?_⟩
  · have hlen : (s.wdata.take (payloadLen q w)).length = payloadLen q w := List.length_take_of_le hl
    refine ⟨_, _, (List.take_append_drop ..).symm, hlen, fun i hd => ?_, ?_⟩
    · exact wellFormed_of_length (hlen.trans (payloadLen_of_legal hd q))
    · rw [act_of_empty hs, accept_of_enabled (s := serve q s) hw hl]
      rfl
  · rw [act_of_empty hs, accept_of_short (s := serve q s) hw hl]
    rfl

/-! ## Without a buffer (60_exceptions.md R702 step 3) -/

/-- Settles O11: every operation but CONSTRUCT and STATUS is subject to the check. -/
theorem withoutABufferOperationsAnswerNoBuffer : Obligations.WithoutABufferOperationsAnswerNoBuffer :=
  ⟨noBufferOnPorts rfl, noBufferOnPorts rfl, noBufferOnPorts rfl, noBufferOnPorts rfl, fun _ => noBufferOnPorts rfl,
    fun _ => noBufferOnPorts rfl, fun _ => noBufferOnPorts rfl, fun _ => noBufferOnPorts rfl, noBufferOnPorts rfl,
    noBufferOnPorts rfl, noBufferOnPorts rfl⟩

/-! ## DESTROY (40_ringbuffer.md R408) -/

/-- What DESTROY leaves of P and C: an ABORTED where a PRODUCE or CONSUME is pending. -/
theorem destroyed_other_port {q : Port} {s : State} (hp : s.served = .h) (hq : q ≠ .h) :
    let t := respond .ok 0#24 [] (closeSession (abort .c (abort .p s)))
    if holdsBlocking (s.pend.get q) then
      t.pend.get q = none ∧ t.trace.get q = s.trace.get q ++ [.response ⟨0x80000000#32, []⟩]
    else t.pend.get q = s.pend.get q ∧ t.trace.get q = s.trace.get q := by
  cases q with
  | p | c => split <;> simp_all [abort_pend, abort_trace]
  | h => exact absurd rfl hq

/-- Settles O17: the aborts on P and C, then the end of the session, then the answer on H. -/
theorem destroyEndsTheSessionAndAborts : Obligations.DestroyEndsTheSessionAndAborts := by
  intro s hp hc blocked
  refine ⟨_, exec_destroy_of_buffer hp hc, rfl, rfl, rfl, rfl, rfl, rfl, rfl, rfl, fun _ => rfl, ?_, ?_,
    fun q hq => destroyed_other_port hp hq, ?_, ?_⟩
  · simp [hp]
  · simp [hp, abort_trace, show responseWord .ok 0#24 = 0x00000000#32 from rfl]
  · rw [respond_fault, respond_faultCode, closeSession_fault, closeSession_faultCode, abort_both_fault, abort_both_faultCode]
    dsimp only [blocked]
    cases holdsBlocking (s.pend.get .p) || holdsBlocking (s.pend.get .c) with
    | false => exact ⟨rfl, rfl⟩
    | true => exact ⟨rfl, by cases s.fault <;> rfl⟩
  · simp

/-! ## What operations leave (20_memory.md section 2) -/

theorem bytesKept_of_same {s t : State} (hst : t.storage = s.storage) (hdr : t.draw = s.draw) : BytesKept s t := by
  intro a
  rw [memRead, memRead, hst, hdr]

/-- The parameters, the agents' queues and the schedule are the same, and so is the served mark. -/
structure EnvironmentKept (s t : State) : Prop where
  params : t.params = s.params
  inbox : t.inbox = s.inbox
  wdata : t.wdata = s.wdata
  turns : t.turns = s.turns
  tick : t.tick = s.tick
  served : t.served = s.served

theorem environmentKept_raise (e : Status) (s : State) : EnvironmentKept s (raise e s) := by
  constructor <;> simp

theorem Change.environmentKept {i : Instr} {s t : State} (h : Change s i t) : EnvironmentKept s t := by
  cases h with
  | failsCheck _ | alreadyThere _ _ => exact environmentKept_raise _ s
  | closes _ _ => constructor <;> simp
  | replies _ _ _ _ _ | opens _ _ _ _ _ | stores _ _ _ _ _ _ | delivers _ _ _ _ _ _ | finishes _ _ _ _ | signals _ _
  | produceWaits _ _ _ _ | consumeWaits _ _ _ _ => exact ⟨rfl, rfl, rfl, rfl, rfl, rfl⟩

theorem Change.otherPortsKept {i : Instr} {s t : State} (h : Change s i t) (hi : i ≠ .destroy) :
    OtherPortsKept s.served s t :=
  fun _ hr => (h.reply.other_port hr).resolve_right fun ⟨hd, _⟩ => hi hd

/-- Past the common checks only a CONSTRUCT where a buffer exists and a DESTROY can raise a fault. -/
theorem Change.fault_kept {i : Instr} {s t : State} (h : Change s i t) (hk : commonCheck s.served i s = none)
    (hcon : ∀ cap, i = .construct cap → s.constructed = false) (hi : i ≠ .destroy) :
    t.fault = s.fault ∧ t.faultCode = s.faultCode := by
  cases h with
  | failsCheck h => simp [hk] at h
  | alreadyThere _ hc => simp [hc] at hcon
  | closes _ _ => exact absurd rfl hi
  | replies _ _ _ _ _ | opens _ _ _ _ _ | stores _ _ _ _ _ _ | delivers _ _ _ _ _ _ | finishes _ _ _ _ | signals _ _
  | produceWaits _ _ _ _ | consumeWaits _ _ _ _ => exact ⟨rfl, rfl⟩

/-- Only a store and a DESTROY change what STORAGE reads. -/
theorem Change.bytesKept {i : Instr} {s t : State} (h : Change s i t) (hw : ∀ len, i ≠ .write len ∧ i ≠ .produce len)
    (hd : i ≠ .destroy) : BytesKept s t := by
  cases h with
  | failsCheck _ | alreadyThere _ _ => exact bytesKept_of_same (raise_storage ..) (raise_draw ..)
  | closes _ _ => exact absurd rfl hd
  | @stores _ len _ hi _ _ _ _ _ => exact absurd hi (not_or.mpr (hw len))
  | replies _ _ _ _ _ | opens _ _ _ _ _ | delivers _ _ _ _ _ _ | finishes _ _ _ _ | signals _ _
  | produceWaits _ _ _ _ | consumeWaits _ _ _ _ => exact bytesKept_of_same rfl rfl

/-- Taking an exception writes the served slot, its observation and the fault record, and nothing else (R703). -/
theorem raise_eq_with (e : Status) (s : State) :
    ∃ pend trace fault code, raise e s = { s with pend := pend, trace := trace, fault := fault, faultCode := code } := by
  unfold raise recordFault
  split
  · exact ⟨_, _, _, _, rfl⟩
  · exact ⟨_, _, _, _, rfl⟩

/-- Settles O28: a query fails a common check or replies. -/
theorem queriesLeaveEverythingElse : Obligations.QueriesLeaveEverythingElse := by
  intro i s t hi hexec
  have hc := exec_change hexec
  have hdestroy : i ≠ .destroy := by rintro rfl; simp at hi
  refine ⟨?_, hc.otherPortsKept hdestroy, hc.bytesKept (fun len => ?_) hdestroy, fun hbuf => hc.fault_kept ?_ ?_ hdestroy⟩
  · cases hc with
    | @failsCheck _ e _ =>
      obtain ⟨_, _, _, _, he⟩ := raise_eq_with e s
      rw [he]
    | replies _ _ _ _ _ => rfl
    | stores h _ _ _ _ _ | delivers h _ _ _ _ _ => rcases h with rfl | rfl <;> simp at hi
    | alreadyThere _ _ | opens _ _ _ _ _ | closes _ _ | finishes _ _ _ _ | signals _ _ | produceWaits _ _ _ _
    | consumeWaits _ _ _ _ => simp at hi
  · constructor <;> (rintro rfl; simp at hi)
  · refine commonCheck_eq_none.mpr ⟨?_, fun _ => hbuf⟩
    simp only [List.mem_cons, List.not_mem_nil, or_false] at hi
    rcases hi with rfl | rfl | rfl | rfl | rfl | rfl <;> cases s.served <;> decide
  · rintro cap rfl
    simp at hi

/-- An index that none of the bytes stored goes to reads as before. -/
theorem memRead_putBytes_other {s : State} {n a : Nat} (hr : CanPut n s)
    (ha : ∀ k < n, a ≠ (s.tail.toNat + k) % s.capacity.toNat) : memRead (putBytes n s) a = memRead s a := by
  obtain ⟨hreq, hl⟩ := hr
  obtain ⟨-, hn, htail, -⟩ := ringRequires_iff.mp hreq
  have hlen : ((servedPayload s).take n).length = n := List.length_take_of_le hl
  rw [memRead, memRead, putBytes_storage, putBytes_draw,
    ringStore_lookup_other _ htail (hlen.trans_le hn) fun k hk => ha k (hlen ▸ hk)]

/-- Settles O29: a WRITE or PRODUCE fails a common check, replies, waits, or stores at the tail. -/
theorem storesLeaveEverythingElse : Obligations.StoresLeaveEverythingElse := by
  intro i len s t hi hexec
  have hc := exec_change hexec
  have hi : i = .write len ∨ i = .produce len := by simpa using hi
  have hdestroy : i ≠ .destroy := by rintro rfl; simp at hi
  refine ⟨?_, hc.otherPortsKept hdestroy, fun a ha => ?_, fun hbuf hp => hc.fault_kept ?_ ?_ hdestroy⟩
  · cases hc with
    | @failsCheck _ e _ =>
      obtain ⟨_, _, _, _, he⟩ := raise_eq_with e s
      rw [he]
    | replies _ _ _ _ _ | stores _ _ _ _ _ _ | produceWaits _ _ _ _ => rfl
    | delivers h _ _ _ _ _ => rcases h with rfl | rfl <;> simp at hi
    | alreadyThere _ _ | opens _ _ _ _ _ | closes _ _ | finishes _ _ _ _ | signals _ _ | consumeWaits _ _ _ _ => simp at hi
  · cases hc with
    | failsCheck _ => exact bytesKept_of_same (raise_storage ..) (raise_draw ..) a
    | replies _ _ _ _ _ | produceWaits _ _ _ _ => rfl
    | @stores _ _ n _ _ _ _ hroom hr =>
      have hcap : s.capacity.toNat < 16777216 := s.capacity.isLt
      obtain ⟨hpos, -⟩ := ringRequires_iff.mp hr.1
      unfold avail at hroom
      refine memRead_putBytes_other hr fun k hk => ha k ?_
      rw [respond_size, putBytes_size, toNat_ofNat24 (by omega)]
      omega
    | delivers h _ _ _ _ _ => rcases h with rfl | rfl <;> simp at hi
    | alreadyThere _ _ | opens _ _ _ _ _ | closes _ _ | finishes _ _ _ _ | signals _ _ | consumeWaits _ _ _ _ => simp at hi
  · refine commonCheck_eq_none.mpr ⟨?_, fun _ => hbuf⟩
    rcases hi with rfl | rfl <;> simp [hp, portRights]
  · rintro cap rfl
    simp at hi

/-- Settles O30: a READ or CONSUME fails a common check, replies, waits, delivers at the head, or ends the data. -/
theorem deliveriesLeaveEverythingElse : Obligations.DeliveriesLeaveEverythingElse := by
  intro i len s t hi hexec
  have hc := exec_change hexec
  have hi : i = .read len ∨ i = .consume len := by simpa using hi
  have hdestroy : i ≠ .destroy := by rintro rfl; simp at hi
  refine ⟨?_, hc.otherPortsKept hdestroy, hc.bytesKept (fun n => ?_) hdestroy, ?_,
    fun hbuf hp => hc.fault_kept ?_ ?_ hdestroy⟩
  · cases hc with
    | @failsCheck _ e _ =>
      obtain ⟨_, _, _, _, he⟩ := raise_eq_with e s
      rw [he]
    | replies _ _ _ _ _ | delivers _ _ _ _ _ _ | finishes _ _ _ _ | consumeWaits _ _ _ _ => rfl
    | stores h _ _ _ _ _ => rcases h with rfl | rfl <;> simp at hi
    | alreadyThere _ _ | opens _ _ _ _ _ | closes _ _ | signals _ _ | produceWaits _ _ _ _ => simp at hi
  · constructor <;> (rintro rfl; simp at hi)
  · rintro rfl
    cases hc with
    | failsCheck _ => exact raise_consumerExited ..
    | replies _ _ _ _ _ | stores _ _ _ _ _ _ | delivers _ _ _ _ _ _ => rfl
  · refine commonCheck_eq_none.mpr ⟨?_, fun _ => hbuf⟩
    rcases hi with rfl | rfl <;> simp [hp, portRights]
  · rintro cap rfl
    simp at hi

/-- Settles O31: a CONSTRUCT raises a fault, replies or opens a session, and a signal raises a fault, replies or sets its flag. -/
theorem sessionControlLeavesEverythingElse : Obligations.SessionControlLeavesEverythingElse := by
  refine ⟨fun cap s t hexec => ?_, fun s t hexec => ?_⟩
  · have hc := exec_change hexec
    refine ⟨?_, hc.otherPortsKept (by simp), hc.bytesKept (by simp) (by simp), fun hnone hp => hc.fault_kept ?_ ?_ (by simp)⟩
    · cases hc with
      | @failsCheck _ e _ =>
        obtain ⟨_, _, _, _, he⟩ := raise_eq_with e s
        rw [he]
      | alreadyThere _ _ =>
        obtain ⟨_, _, _, _, he⟩ := raise_eq_with .alreadyConstructed s
        rw [he]
      | replies _ _ _ _ _ | opens _ _ _ _ _ => rfl
      | stores h _ _ _ _ _ | delivers h _ _ _ _ _ => simp at h
    · exact commonCheck_eq_none.mpr ⟨by simp [hp, portRights], fun h => nomatch h⟩
    · exact fun _ _ => hnone
  · have hc := exec_change hexec
    refine ⟨?_, hc.otherPortsKept (by simp), hc.bytesKept (by simp) (by simp), fun hbuf hp => hc.fault_kept ?_ ?_ (by simp)⟩
    · cases hc with
      | @failsCheck _ e _ =>
        obtain ⟨_, _, _, _, he⟩ := raise_eq_with e s
        rw [he]
      | replies _ _ _ _ _ | signals _ _ => rfl
      | stores h _ _ _ _ _ | delivers h _ _ _ _ _ => simp at h
    · refine commonCheck_eq_none.mpr ⟨?_, fun _ => hbuf⟩
      revert hp
      cases s.served <;> decide
    · simp

/-- Settles O32: whatever DESTROY does keeps the environment, what it does not abort and an earlier fault; off H, or without a
buffer, it only raises a fault. -/
theorem destroyLeavesTheRest : Obligations.DestroyLeavesTheRest := by
  intro s t hexec
  have hc := exec_change hexec
  obtain ⟨hparams, hinbox, hwdata, hturns, htick, hserved⟩ := hc.environmentKept
  refine ⟨hparams, hinbox, hwdata, hturns, htick, hserved, fun q hq hb => ?_, fun hf => ?_, fun hfail => ?_⟩
  · refine (hc.reply.other_port hq).resolve_right ?_
    rintro ⟨-, -, -, hblocked, -⟩
    simp [hb] at hblocked
  · cases hc.faultEffect with
    | quiet hf' hcode _ => exact ⟨hf'.trans hf, hcode⟩
    | raised hf' hcode _ => exact ⟨hf', hcode.trans (if_pos hf)⟩
  · obtain ⟨e, hk⟩ : ∃ e, commonCheck s.served .destroy s = some e := by
      rw [← Option.ne_none_iff_exists', Ne, commonCheck_eq_none]
      rintro ⟨hp, hbuf⟩
      rcases hfail with h | h
      · exact h (List.mem_singleton.mp hp)
      · simp [h, needsBuffer] at hbuf
    obtain rfl := Host.Outcome.next.inj ((exec_of_fail hk).symm.trans hexec)
    refine ⟨?_, ?_, bytesKept_of_same (raise_storage ..) (raise_draw ..)⟩
    · obtain ⟨_, _, _, _, he⟩ := raise_eq_with e s
      rw [he]
    · intro r hr
      rw [raise_pend, raise_trace]
      exact ⟨PerPort_get_set_other _ _ hr, PerPort_get_set_other _ _ hr⟩

end Sys2Proof.Machine

namespace Sys2Proof.Machine

/-! ## STORAGE and the counts (10_state.md R106, R109) -/

theorem Change.storage_wf {i : Instr} {s t : State} (h : Change s i t) (hw : Memory.wf s.storage) : Memory.wf t.storage := by
  cases h with
  | failsCheck _ | alreadyThere _ _ => rwa [raise_storage]
  | closes _ _ => exact List.Pairwise.nil
  | stores _ _ _ _ _ _ => exact ringStore_wf hw
  | replies _ _ _ _ _ | opens _ _ _ _ _ | delivers _ _ _ _ _ _ | finishes _ _ _ _ | signals _ _
  | produceWaits _ _ _ _ | consumeWaits _ _ _ _ => exact hw

/-- Settles O36: STORAGE is left, written by the ring copy, or emptied. -/
theorem storageStaysCanonical : Obligations.StorageStaysCanonical := by
  intro u s t hw hu
  cases act_change hu with
  | resets => exact List.Pairwise.nil
  | idles _ | accepts _ _ _ => exact hw
  | illegal _ _ => rwa [raise_storage]
  | runs _ _ hc => exact hc.storage_wf hw

theorem Inv.size_le_capacity {s : State} (h : Inv s) : s.size.toNat ≤ s.capacity.toNat := by
  cases hc : s.constructed with
  | true =>
    obtain ⟨-, -, -, hsize, -, -⟩ := h.ring hc
    exact hsize
  | false =>
    obtain ⟨hcap, hsize, -⟩ := h.idle hc
    rw [hcap, hsize]

/-- Settles O37: the turn keeps the invariant, in which SIZE is at most CAPACITY. -/
theorem sizePlusAvailIsCapacity : Obligations.SizePlusAvailIsCapacity := by
  intro u s t h hu
  exact Nat.add_sub_of_le (act_inv h hu).size_le_capacity

/-! ## Who writes what (10_state.md sections 2 and 3) -/

/-- Settles O39: deliveries move HEAD, stores move TAIL and write STORAGE, and only session control does either beside them. -/
theorem eachPointerHasItsOwnWriters : Obligations.EachPointerHasItsOwnWriters := by
  intro u s t hu
  cases act_change hu with
  | resets => exact ⟨fun _ => .inr (.inr (.inr rfl)), fun _ => .inr (.inr (.inr rfl)), fun _ => .inr (.inr rfl)⟩
  | idles _ | accepts _ _ _ => exact ⟨absurd rfl, absurd rfl, absurd (bytesKept_of_same rfl rfl)⟩
  | illegal _ _ =>
    exact ⟨absurd (raise_head ..), absurd (raise_tail ..), absurd (bytesKept_of_same (raise_storage ..) (raise_draw ..))⟩
  | @runs q cmd i _ hs hd hc =>
    have run : Completing (.port q) q i s := ⟨rfl, cmd, hs, hd⟩
    cases hc with
    | failsCheck _ | alreadyThere _ _ =>
      exact ⟨absurd (raise_head ..), absurd (raise_tail ..), absurd (bytesKept_of_same (raise_storage ..) (raise_draw ..))⟩
    | replies _ _ _ _ _ | finishes _ _ _ _ | signals _ _ | produceWaits _ _ _ _ | consumeWaits _ _ _ _ =>
      exact ⟨absurd rfl, absurd rfl, absurd (bytesKept_of_same rfl rfl)⟩
    | opens hp _ _ _ _ =>
      obtain rfl : q = .h := hp
      exact ⟨fun _ => .inr (.inl ⟨_, run⟩), fun _ => .inr (.inl ⟨_, run⟩), absurd (bytesKept_of_same rfl rfl)⟩
    | closes hp _ =>
      obtain rfl : q = .h := hp
      exact ⟨fun _ => .inr (.inr (.inl run)), fun _ => .inr (.inr (.inl run)), fun _ => .inr (.inl run)⟩
    | stores hi hp _ _ _ _ =>
      obtain rfl : q = .p := hp
      have store : ∃ len, Completing (.port .p) .p (.write len) s ∨ Completing (.port .p) .p (.produce len) s := by
        rcases hi with rfl | rfl
        · exact ⟨_, .inl run⟩
        · exact ⟨_, .inr run⟩
      exact ⟨absurd rfl, fun _ => .inl store, fun _ => .inl store⟩
    | delivers hi hp _ _ _ _ =>
      obtain rfl : q = .c := hp
      have delivery : ∃ len, Completing (.port .c) .c (.read len) s ∨ Completing (.port .c) .c (.consume len) s := by
        rcases hi with rfl | rfl
        · exact ⟨_, .inl run⟩
        · exact ⟨_, .inr run⟩
      exact ⟨fun _ => .inl delivery, absurd rfl, absurd (bytesKept_of_same rfl rfl)⟩

/-- A turn that leaves both flags neither sets nor clears one. -/
theorem flags_kept {s t : State} {A B C : Prop} (hd : t.producerDone = s.producerDone)
    (he : t.consumerExited = s.consumerExited) :
    (s.producerDone = false → t.producerDone = true → A) ∧ (s.consumerExited = false → t.consumerExited = true → B)
      ∧ ((s.producerDone = true ∧ t.producerDone = false) ∨ (s.consumerExited = true ∧ t.consumerExited = false)
          → C) := by
  rw [hd, he]
  simp_all

/-- Settles O40: the signal sets the one flag, the end of data the other, and only session control clears them. -/
theorem sessionFlagsHaveOneSource : Obligations.SessionFlagsHaveOneSource := by
  intro u s t hu
  cases act_change hu with
  | resets => exact ⟨fun _ h => (nomatch h), fun _ h => (nomatch h), fun _ => .inr (.inr rfl)⟩
  | idles _ | accepts _ _ _ => exact flags_kept rfl rfl
  | illegal _ _ => exact flags_kept (raise_producerDone ..) (raise_consumerExited ..)
  | @runs q cmd i _ hs hd hc =>
    have run : Completing (.port q) q i s := ⟨rfl, cmd, hs, hd⟩
    cases hc with
    | failsCheck _ | alreadyThere _ _ => exact flags_kept (raise_producerDone ..) (raise_consumerExited ..)
    | replies _ _ _ _ _ | stores _ _ _ _ _ _ | delivers _ _ _ _ _ _ | produceWaits _ _ _ _ | consumeWaits _ _ _ _ =>
      exact flags_kept rfl rfl
    | opens hp _ _ _ _ =>
      obtain rfl : q = .h := hp
      exact ⟨fun _ h => (nomatch h), fun _ h => (nomatch h), fun _ => .inl ⟨_, run⟩⟩
    | closes hp _ =>
      obtain rfl : q = .h := hp
      exact ⟨fun _ h => (nomatch h), fun _ h => (nomatch h), fun _ => .inr (.inl run)⟩
    | finishes hp _ _ hdone =>
      obtain rfl : q = .c := hp
      refine ⟨fun h0 => ?_, fun _ _ => ⟨_, run, _, isReply_responseWord .endOfData sentinel, trace_respond_served ..⟩, ?_⟩
      · exact absurd (h0.symm.trans hdone) (by decide)
      · rintro (⟨h1, h0⟩ | ⟨_, h0⟩)
        · exact absurd (h0.symm.trans h1) (by decide)
        · cases h0
    | signals hp _ =>
      refine ⟨fun _ _ => ?_, fun h0 h1 => ?_, ?_⟩
      · obtain rfl | rfl : q = .p ∨ q = .h := hp
        · exact .inl run
        · exact .inr run
      · exact absurd (h0.symm.trans h1) (by decide)
      · rintro (⟨_, h0⟩ | ⟨h1, h0⟩)
        · cases h0
        · exact absurd (h0.symm.trans h1) (by decide)

/-! ## A PRODUCE longer than the capacity (70_reset_and_hazards.md R815) -/

theorem completing_word {u : Turn} {q : Port} {i j : Instr} {s : State} {cmd : Command} (h : Completing u q i s)
    (hs : s.pend.get q = some cmd) (hd : decode cmd.word = .ok j) : i = j := by
  obtain ⟨-, cmd', hs', hd'⟩ := h
  obtain rfl := Option.some.inj (hs.symm.trans hs')
  exact Except.ok.inj (hd'.symm.trans hd)

/-- A turn of a port ends a session only by DESTROY. -/
theorem act_ends_session {q : Port} {s t : State} (hu : act (.port q) s = .next t) (hc : s.constructed = true)
    (ht : t.constructed = false) : Completing (.port q) .h .destroy s := by
  have same {P : Prop} (h : t.constructed = s.constructed) : P := absurd (ht.symm.trans (h.trans hc)) (by decide)
  cases act_change hu with
  | idles _ | accepts _ _ _ => exact same rfl
  | illegal _ _ => exact same (raise_constructed ..)
  | @runs q cmd i _ hs hd h =>
    cases h with
    | failsCheck _ | alreadyThere _ _ => exact same (raise_constructed ..)
    | replies _ _ _ _ _ | stores _ _ _ _ _ _ | delivers _ _ _ _ _ _ | finishes _ _ _ _ | signals _ _
    | produceWaits _ _ _ _ | consumeWaits _ _ _ _ => exact same rfl
    | opens _ _ _ _ _ => cases ht
    | closes hp _ =>
      obtain rfl : q = .h := hp
      exact ⟨rfl, cmd, hs, hd⟩

/-- Settles O48: only SIGNAL_PRODUCER_DONE, DESTROY and reset change what the guard reads, and in P's own turn the command
waits. -/
theorem overlongProduceWaitsForShutdown : Obligations.OverlongProduceWaitsForShutdown := by
  intro u s t cmd len h hc hdone hs hd hlong hu
  by_cases hreset : u = .reset
  · exact .inr (.inr (.inr hreset))
  by_cases hsig : Completing u .h .signalProducerDone s
  · exact .inr (.inl hsig)
  by_cases hdes : Completing u .h .destroy s
  · exact .inr (.inr (.inl hdes))
  left
  have waits {x : State} (hp : x.pend.get .p = some cmd) (hcap : x.capacity = s.capacity) (hx : x.constructed = true)
      (hxd : x.producerDone = false) : completeEnabled .p x = false := by
    rw [completeEnabled_of_legal hp hd, guardOf_produce_eq_false]
    refine ⟨hx, hxd, ?_⟩
    rw [avail, hcap]
    omega
  obtain ⟨q, rfl⟩ : ∃ q, u = .port q := by
    cases u with
    | port q => exact ⟨q, rfl⟩
    | reset => exact absurd rfl hreset
  have hpend : t.pend.get .p = some cmd := by
    by_cases hq : Port.p = q
    · subst hq
      rw [act_of_waiting (by simp [hs]) (waits hs rfl hc hdone)] at hu
      cases hu
      exact hs
    · rcases act_other_port hu hq with ⟨hkept, -⟩ | ⟨hrun, -⟩
      · exact hkept.trans hs
      · exact absurd hrun hdes
  have hcon : t.constructed = true := by
    by_contra hcon
    exact hdes (act_ends_session hu hc (by simpa using hcon))
  have hcap : t.capacity = s.capacity := by
    by_contra hne
    rcases capacityIsFixedInASession _ s t hu hne with ⟨hnone, -⟩ | ⟨hclosed, -⟩
    · exact absurd (hnone.symm.trans hc) (by decide)
    · exact absurd (hclosed.symm.trans hcon) (by decide)
  have htd : t.producerDone = false := by
    by_contra hset
    obtain ⟨hsource, -⟩ := sessionFlagsHaveOneSource _ s t hu
    rcases hsource hdone (by simpa using hset) with hrun | hrun
    · cases completing_word hrun hs hd
    · exact hsig hrun
  exact ⟨hpend, waits hpend hcap hcon htd, hcap, htd, hcon⟩

/-! ## Single words and single steps (30_encoding.md R303, 20_memory.md R211) -/

/-- Settles O5: each word is its opcode and operand put together. -/
theorem sampleWordsDecode : Obligations.SampleWordsDecode :=
  ⟨decode_commandWord 0x1#4 4096#24, decode_commandWord 0x6#4 5#24, decode_commandWord 0x7#4 10#24,
    decode_commandWord 0x8#4 2048#24, decode_commandWord 0x9#4 8192#24, decode_commandWord 0xA#4 0#24,
    decode_commandWord 0xB#4 0#24, decode_commandWord 0xD#4 0#24, by decide⟩

/-- Settles O6: the next turn is the first the schedule names, and advancing uses it up. -/
theorem stepRunsTheDecodedOperation : Obligations.StepRunsTheDecodedOperation := by
  intro s q ts cmd i hts hs hd
  have hturn : nextTurn s = .port q := by
    unfold nextTurn
    rw [hts]
  rw [step, hturn, act_of_legal (s := advance s) hs hd, advance, hts]
  rfl

/-! ## Reset (10_state.md R119, 70_reset_and_hazards.md R800, R801) -/

/-- Settles O12: the fields of `State.reset`. -/
theorem resetLeavesTheTableOfValues : Obligations.ResetLeavesTheTableOfValues :=
  ⟨rfl, rfl, rfl, rfl, rfl, fun _ => rfl, rfl, rfl, rfl, rfl, PerPort_get_const none⟩

theorem cmdReady_of_empty {q : Port} {s : State} (h : s.pend.get q = none) : cmdReady q s = true := by
  rw [cmdReady, h]
  rfl

/-- Settles O13: the pulse writes the reset value into every field but the model's own. -/
theorem resetPulseRestoresTheResetValues : Obligations.ResetPulseRestoresTheResetValues :=
  fun s => ⟨_, act_reset s, rfl, rfl, fun q => cmdReady_of_empty (PerPort_get_const none q)⟩

/-- Settles O33: the default parameters are legal, and everything else is empty. -/
theorem resetIsLegal : Obligations.ResetIsLegal where
  params := by decide
  idle _ := ⟨rfl, rfl, rfl, rfl, rfl, rfl⟩
  ring h := nomatch h
  exited h := nomatch h
  fault := rfl
  slots q := by
    rw [show State.reset.pend.get q = none from PerPort_get_const none q]
    simp [SlotLegal]
  storage := by simp [StorageLegal, State.reset]

theorem PerPort_set_set {α : Type} (x : PerPort α) (q : Port) (v w : α) : (x.set q v).set q w = x.set q w := by
  cases q <;> rfl

/-- An answer empties its slot whatever was pending there. -/
theorem answered_pending (q : Port) (w : Word) (data : List Byte) (slot : Option Command) (s : State) :
    answered q w data { s with pend := s.pend.set q slot } = answered q w data s := by
  simp only [answered, PerPort_set_set]

/-- Without a buffer no command waits. -/
theorem waiting_of_no_buffer {s : State} (hc : s.constructed = false) : pWaiting s = false ∧ cWaiting s = false := by
  refine ⟨Bool.eq_false_iff.mpr fun h => ?_, Bool.eq_false_iff.mpr fun h => ?_⟩
  · obtain ⟨cmd, len, -, -, hg⟩ := pWaiting_iff.mp h
    exact absurd (hc.symm.trans (guardOf_produce_eq_false.mp hg).1) (by decide)
  · obtain ⟨cmd, max, -, -, hg⟩ := cWaiting_iff.mp h
    exact absurd (hc.symm.trans (guardOf_consume_eq_false.mp hg).1) (by decide)

/-- With no buffer, no flag and no fault every bit of STATUS is 0 (R600). -/
theorem statusValue_eq_zero {s : State} (hs : session s = some .unconstructed) (hf : s.fault = false)
    (hcode : s.faultCode = 0#4) : statusValue s = 0#24 := by
  obtain ⟨hc, hd, he⟩ : s.constructed = false ∧ s.producerDone = false ∧ s.consumerExited = false := by
    simpa [Session.flags] using session_eq_some_iff.mp hs
  obtain ⟨hpw, hcw⟩ := waiting_of_no_buffer hc
  apply BitVec.eq_of_toNat_eq
  rw [statusValue_toNat, emptyFlag, fullFlag, hc, hd, he, hf, hcode, hpw, hcw]
  rfl

theorem needsBuffer_of_ne {i : Instr} (hst : i ≠ .status) (hcon : ∀ cap, i ≠ .construct cap) : needsBuffer i = true := by
  cases i with
  | construct cap => exact absurd rfl (hcon cap)
  | status => exact absurd rfl hst
  | destroy | capacity | size | avail | write _ | read _ | produce _ | consume _ | signalProducerDone | head | tail => rfl

/-- Settles O14: at reset every STATUS bit is 0, and without a buffer the other operations fail the check. -/
theorem afterResetOnlyConstructAndStatusWork : Obligations.AfterResetOnlyConstructAndStatusWork := by
  refine ⟨rfl, fun q => cmdReady_of_empty (PerPort_get_const none q), fun q bytes => ?_, fun i q cmd hq hst hcon => ?_⟩
  · rw [exec_status, statusValue_eq_zero rfl rfl rfl, respond_eq_answered]
    exact congrArg _ (answered_pending q _ _ _ { State.reset with served := q })
  · rw [noBufferOnPorts (needsBuffer_of_ne hst hcon) _ hq rfl]
    exact congrArg _ (answered_pending q _ _ _ (faulted 5 { State.reset with served := q }))

end Sys2Proof.Machine
